-- ==== Sys2Proof/Word.lean ====
section
/-! DEFINITION. The words of the block: register words, bytes, colours, and the names of its two byte spaces. -/

namespace Sys2Proof

/-- An interface register value: 32 bits, unsigned (00_scope.md R8 REG_W, R12). -/
abbrev Word := BitVec 32

/-- One byte of CHR or PIX (20_memory.md R61). -/
abbrev Byte := BitVec 8

/-- A colour: R in bits 23:16, G in bits 15:8, B in bits 7:0 (10_state.md R30). -/
abbrev Color := BitVec 24

/-- The block's two disjoint byte spaces (20_memory.md R50, R51, R52). -/
inductive Space where
  | chr   -- packed tiles (R50)
  | pix   -- unpacked pixels (R51)
deriving DecidableEq, Repr

end Sys2Proof
end

