-- ==== Sys2Proof/Config.lean ====
section
/-! DEFINITION. What an implementation of the block fixes, and the free values.
The opaque constants have no value that a proof can see: a statement about the model holds whatever they are.
The constants of 00_scope.md R7 (8, 2, 16, 64, 4, 24) are fixed by the data formats and stand as the numerals
of the spec's own pseudocode. -/

namespace Sys2Proof

/-- The number the platform offers for CHR_SIZE, before its bounds (00_scope.md R8, OPEN). -/
opaque Config.chrSizeRaw : Nat

/-- The number the platform offers for PIX_SIZE, before its bounds (00_scope.md R8, OPEN). -/
opaque Config.pixSizeRaw : Nat

/-- CHR_SIZE of the machine `State.reset` stands for: any number from 16 to 2^32, as `chrSizeRaw` varies
(00_scope.md R8, 20_memory.md R50). DESIGN CHOICE, log 3: the size is a parameter that State carries. -/
def Config.chrSize : Nat := max 16 (min Config.chrSizeRaw (2 ^ 32))

/-- PIX_SIZE of the machine `State.reset` stands for: any number from 64 to 2^32, as `pixSizeRaw` varies
(00_scope.md R8, 20_memory.md R51). DESIGN CHOICE, log 3. -/
def Config.pixSize : Nat := max 64 (min Config.pixSizeRaw (2 ^ 32))

/-- The value of a byte that nothing has written since the reset input was last applied (20_memory.md R68,
70_reset_and_hazards.md R182): a free value for each space, each reset (the `draw`-th) and each address.
DESIGN CHOICE, log 4. -/
opaque Config.unwrittenByte : Space → (draw : Nat) → (addr : Nat) → Byte

/-- PAL_DEFAULT, the reset and init colour (R,G,B) = (0,255,127) (00_scope.md R8, 42_palette.md R140;
90_conflicts.md C2). A named parameter whose value the spec settles (log 11). -/
def Config.palDefault : Color := 0x00FF7F#24

/-- REG_BASE, the host-bus base address of the register window (00_scope.md R8, OPEN). No rule depends on it,
and nothing in the model reads it: transactions name offsets inside the window (log 12). -/
opaque Config.regBase : Nat

/-- CMD_CYCLES, the time a command takes, by its opcode and its tile count (70_reset_and_hazards.md R188, OPEN).
No rule depends on it, and nothing in the model reads it: the model has no time (log 12). -/
opaque Config.cmdCycles : (op : Byte) → (tiles : Nat) → Nat

end Sys2Proof
end

