-- ==== Sys2Proof/Syntax.lean ====
section
/-! DEFINITION. The nine commands (30_encoding.md R75), one constructor per row of spec/opcode_table.json. -/

namespace Sys2Proof

/-- A command. The fields of a command word are unsigned numbers (00_scope.md R12, 30_encoding.md R78), written
here as naturals, as the assembler writes them (R80); `Instr.wf` says that each fits its field (log 9). -/
inductive Instr where
  /-- DECT: decode one tile (40_tile_codec.md R104). -/
  | dect
  /-- ENCT: encode one tile (R105). -/
  | enct
  /-- DECB: decode a buffer of whole tiles (R106). -/
  | decb
  /-- ENCB: encode a buffer of whole tiles (R107). -/
  | encb
  /-- SETPX x, y, v: store one pixel (41_pixel_access.md R131). -/
  | setpx (x y v : Nat)
  /-- GETPX x, y: read one pixel (R132). -/
  | getpx (x y : Nat)
  /-- PINIT: reset the palette (42_palette.md R140). -/
  | pinit
  /-- PSET idx: store a colour (R141). -/
  | pset (idx : Nat)
  /-- PGET idx: read a colour (R142). -/
  | pget (idx : Nat)
deriving DecidableEq, Repr

end Sys2Proof
end

