-- ==== Sys2Proof/WellFormed.lean ====
section
/-! DEFINITION. Which commands have an encoding: every field fits its width. -/

namespace Sys2Proof

/-- A number that fits an 8-bit field (30_encoding.md R73, R74). -/
def fitsByte (n : Nat) : Bool := decide (n < 256)

/-- "Fields are unsigned numbers that fit their width; the assembler refuses a value that does not fit"
(30_encoding.md R80): X, Y and V of format P (R73) and IDX of format C (R74) are 8 bits wide. -/
def Instr.wf : Instr → Bool
  | .dect => true
  | .enct => true
  | .decb => true
  | .encb => true
  | .setpx x y v => fitsByte x && fitsByte y && fitsByte v
  | .getpx x y => fitsByte x && fitsByte y
  | .pinit => true
  | .pset idx => fitsByte idx
  | .pget idx => fitsByte idx

end Sys2Proof
end

