-- ==== Sys2Proof/Decode.lean ====
section
/-! DEFINITION. The decoder (30_encoding.md R79), total on all 2^32 command words, and after it the encoder
(R72 to R75) and the opcode map as a table of match and mask (R75). -/

namespace Sys2Proof

/-- Why a word is illegal. The spec has one Illegal outcome (R76, R77); the two names are the model's (log 16). -/
inductive Illegal where
  /-- OP is 0x00 or in 0x0A to 0xFF (R76). -/
  | reservedOpcode
  /-- OP is defined and a reserved bit of its format is 1 (R77). -/
  | reservedField
deriving DecidableEq, Repr

/-- What a command word decodes to (R79: `Decode(w) -> Command | Illegal`). -/
inductive Decoded where
  | command (i : Instr)
  | illegal (why : Illegal)
deriving DecidableEq, Repr

/-- OP, bits 7:0 (R71). -/
def fieldOp (w : Word) : Nat := (w.extractLsb' 0 8).toNat

/-- X, bits 15:8 of format P (R73). -/
def fieldX (w : Word) : Nat := (w.extractLsb' 8 8).toNat

/-- Y, bits 23:16 of format P (R73). -/
def fieldY (w : Word) : Nat := (w.extractLsb' 16 8).toNat

/-- V, bits 31:24 of format P (R73). -/
def fieldV (w : Word) : Nat := (w.extractLsb' 24 8).toNat

/-- IDX, bits 15:8 of format C (R74). -/
def fieldIdx (w : Word) : Nat := (w.extractLsb' 8 8).toNat

/-- RSV of format N, bits 31:8 (R72). -/
def reservedN (w : Word) : Nat := (w.extractLsb' 8 24).toNat

/-- RSV of format C, bits 31:16 (R74). -/
def reservedC (w : Word) : Nat := (w.extractLsb' 16 16).toNat

/-- A word of a row whose reserved field is `rsv`: legal when the field is zero (R77). -/
def whenZero (rsv : Nat) (i : Instr) : Decoded :=
  if rsv = 0 then .command i else .illegal .reservedField

/-- The decode of a command word (R79). -/
def decode (w : Word) : Decoded :=
  match fieldOp w with
  | 0x01 => whenZero (reservedN w) .dect
  | 0x02 => whenZero (reservedN w) .enct
  | 0x03 => whenZero (reservedN w) .decb
  | 0x04 => whenZero (reservedN w) .encb
  | 0x05 => .command (.setpx (fieldX w) (fieldY w) (fieldV w))
  | 0x06 => whenZero (fieldV w) (.getpx (fieldX w) (fieldY w))
  | 0x07 => whenZero (reservedN w) .pinit
  | 0x08 => whenZero (reservedC w) (.pset (fieldIdx w))
  | 0x09 => whenZero (reservedC w) (.pget (fieldIdx w))
  | _ => .illegal .reservedOpcode

/-- The command the decoder reads from an instruction's bits, numbered as spec/opcode_table.json numbers them.
A command is one 32-bit word (R70), so the bits are the word; those above `nbits` are 0. -/
def decodeTableWord (nbits w : Nat) : Option Instr :=
  match decode (BitVec.ofNat 32 (w % 2 ^ nbits)) with
  | .command i => some i
  | .illegal _ => none

/-- A format N word: RSV = 0, OP (R72). -/
def formatN (op : Byte) : Word := 0#24 ++ op

/-- A format P word: V, Y, X, OP (R73). -/
def formatP (v y x : Nat) (op : Byte) : Word :=
  BitVec.ofNat 8 v ++ BitVec.ofNat 8 y ++ BitVec.ofNat 8 x ++ op

/-- A format C word: RSV = 0, IDX, OP (R74). -/
def formatC (idx : Nat) (op : Byte) : Word := 0#16 ++ BitVec.ofNat 8 idx ++ op

/-- The word of a well-formed command, from the bit patterns of R75. -/
def encode : Instr → Word
  | .dect => formatN 0x01#8
  | .enct => formatN 0x02#8
  | .decb => formatN 0x03#8
  | .encb => formatN 0x04#8
  | .setpx x y v => formatP v y x 0x05#8
  | .getpx x y => formatP 0 y x 0x06#8
  | .pinit => formatN 0x07#8
  | .pset idx => formatC idx 0x08#8
  | .pget idx => formatC idx 0x09#8

/-- A row of the opcode map: a word w selects it when `(w & mask) == match` (R75). -/
structure OpcodeRow where
  matchBits : Word
  mask : Word
deriving DecidableEq, Repr

/-- A word selects a row (R75). -/
def OpcodeRow.selects (r : OpcodeRow) (w : Word) : Bool := w &&& r.mask == r.matchBits

/-- The opcode map of R75, in its order. -/
def opcodeMap : List OpcodeRow :=
  [⟨0x00000001#32, 0xFFFFFFFF#32⟩, ⟨0x00000002#32, 0xFFFFFFFF#32⟩, ⟨0x00000003#32, 0xFFFFFFFF#32⟩,
   ⟨0x00000004#32, 0xFFFFFFFF#32⟩, ⟨0x00000005#32, 0x000000FF#32⟩, ⟨0x00000006#32, 0xFF0000FF#32⟩,
   ⟨0x00000007#32, 0xFFFFFFFF#32⟩, ⟨0x00000008#32, 0xFFFF00FF#32⟩, ⟨0x00000009#32, 0xFFFF00FF#32⟩]

/-- The row of R75 that stands for a command. -/
def opcodeRow : Instr → OpcodeRow
  | .dect => ⟨0x00000001#32, 0xFFFFFFFF#32⟩
  | .enct => ⟨0x00000002#32, 0xFFFFFFFF#32⟩
  | .decb => ⟨0x00000003#32, 0xFFFFFFFF#32⟩
  | .encb => ⟨0x00000004#32, 0xFFFFFFFF#32⟩
  | .setpx _ _ _ => ⟨0x00000005#32, 0x000000FF#32⟩
  | .getpx _ _ => ⟨0x00000006#32, 0xFF0000FF#32⟩
  | .pinit => ⟨0x00000007#32, 0xFFFFFFFF#32⟩
  | .pset _ => ⟨0x00000008#32, 0xFFFF00FF#32⟩
  | .pget _ => ⟨0x00000009#32, 0xFFFF00FF#32⟩

end Sys2Proof
end

