-- ==== Sys2Proof/Machine/State.lean ====
section
/-! DEFINITION. The state of the block as plain data, its host's transactions, the reasons a step can stop, and
the state right after reset. -/

namespace Sys2Proof.Machine

/-- The eight interface registers of the window (10_state.md R39). -/
inductive RegName where
  | cmd | status | chrAddr | pixAddr | len | cap | color | result
deriving DecidableEq, Repr

/-- The completion codes (60_exceptions.md R151). -/
inductive Completion where
  /-- Success of any command (R159). -/
  | ok
  /-- DECB with LEN % 16 ≠ 0, ENCB with LEN % 64 ≠ 0 (R153). -/
  | invalidLength
  /-- CAP below the size the command needs (R154). -/
  | bufferTooSmall
  /-- Reserved for the host; no command of this block raises it (R155). -/
  | allocationFailure
  /-- A span reaches past its space (R156). -/
  | addressOutOfRange
  /-- The word written to CMD decodes as Illegal (R152). -/
  | illegalCommand
deriving DecidableEq, Repr

/-- One host transaction, a step of the model (00_scope.md R9). -/
inductive HostTxn where
  /-- A register write of `bytes` bytes at an offset of the window, R80's `WR`. A legal one is an aligned 32-bit
  write of `v` (10_state.md R38); the value of any other is not looked at. -/
  | writeReg (bytes off : Nat) (v : Word)
  /-- A register read of `bytes` bytes at an offset of the window, R80's `RD`. -/
  | readReg (bytes off : Nat)
  /-- A write of one byte of a space, R80's `WRB` (20_memory.md R67). -/
  | writeByte (sp : Space) (addr : Nat) (v : Byte)
  /-- A read of one byte of a space, R80's `RDB` (20_memory.md R67). -/
  | readByte (sp : Space) (addr : Nat)
  /-- The reset input (70_reset_and_hazards.md R180). -/
  | reset
deriving DecidableEq, Repr

/-- What the last completed transaction gave the host back (60_exceptions.md R169). The model's own field (log 2). -/
inductive Reply where
  /-- No transaction has completed yet. -/
  | none
  /-- A write, or the reset input, has completed. -/
  | done
  /-- The value of a register read. -/
  | word (v : Word)
  /-- The value of a byte read. -/
  | byte (v : Byte)
deriving DecidableEq, Repr

/-- The bytes of one space that have been written since reset: address and value, addresses strictly rising. An
address that is not listed has not been written (20_memory.md R68); what it reads as is said once, in
`State.memRead` (log 4). -/
abbrev Memory := List Host.Cell

/-- Why a step stops with a fault. No command raises one: a command's errors are completion codes in STATUS
(60_exceptions.md R150). -/
inductive Fault where
  /-- Raised by the host's byte access to an address outside its space: R67 gives the host "any byte of CHR and
  PIX" and no other. Safe: the model stops where the spec says nothing (log 6). -/
  | noSuchByte (sp : Space) (addr : Nat)
  /-- Raised by a register access whose offset is outside the 64-byte window of R39. Safe: the model stops where
  the spec says nothing (log 7). -/
  | outsideWindow (off : Nat)
deriving DecidableEq, Repr

/-- Why a step has no meaning. -/
inductive Refusal where
  /-- An instruction that has no meaning in the model. Raised by no arm of exec. Safe. -/
  | notModelled (mnemonic : String)
  /-- Raised by a register access of another width than 32 bits, or at an offset that is not a multiple of 4: "is
  refused. The model gives it no meaning and sets a refusal mark" (10_state.md R38; S5). Safe (log 8). -/
  | registerAccess (bytes off : Nat)
deriving DecidableEq, Repr

/-- The state of the block, S = (regs, PAL, CHR, PIX) (10_state.md R20), its two size parameters, and three fields
of the model's own (`draw`, `pending`, `reply`). Each register is stored as the bits it has: the reserved bits of
STATUS and of COLOR are no storage (log 13). -/
structure State where
  /-- STATUS.CODE, bits 3:0 (R22). -/
  code : BitVec 4
  /-- STATUS.ANYERR, bit 4 (R22). -/
  anyErr : Bool
  /-- CHR_ADDR (R23). -/
  chrAddr : Word
  /-- PIX_ADDR (R24). -/
  pixAddr : Word
  /-- LEN (R25). -/
  len : Word
  /-- CAP (R26). -/
  cap : Word
  /-- COLOR, bits 23:0 (R27). -/
  color : Color
  /-- RESULT (R28). -/
  result : Word
  /-- PAL[0] to PAL[3] (R30). -/
  pal : Vector Color 4
  /-- The CHR space (20_memory.md R50). -/
  chr : Memory
  /-- The PIX space (20_memory.md R51). -/
  pix : Memory
  /-- CHR_SIZE (00_scope.md R8); no step changes it. -/
  chrSize : Nat
  /-- PIX_SIZE (00_scope.md R8); no step changes it. -/
  pixSize : Nat
  /-- Which draw of the free values the unwritten bytes have; the reset input takes a new one (log 5). -/
  draw : Nat
  /-- The host transactions that have not run yet, next first (20_memory.md R63; log 1). -/
  pending : List HostTxn
  /-- What the last completed transaction gave the host (log 2). -/
  reply : Reply
deriving DecidableEq, Repr

/-- The state after reset of a block with the given sizes (10_state.md R37, 70_reset_and_hazards.md R180 to R182):
the registers are 0, every palette entry is PAL_DEFAULT, no byte has been written, and the block waits for the
host's first transaction. -/
def State.resetWith (chrSize pixSize : Nat) : State where
  code := 0
  anyErr := false
  chrAddr := 0
  pixAddr := 0
  len := 0
  cap := 0
  color := 0
  result := 0
  pal := #v[Config.palDefault, Config.palDefault, Config.palDefault, Config.palDefault]
  chr := []
  pix := []
  chrSize := chrSize
  pixSize := pixSize
  draw := 0
  pending := []
  reply := .none

/-- The machine right after reset, its two sizes the uninterpreted ones of Config (log 3). -/
def State.reset : State := State.resetWith Config.chrSize Config.pixSize

end Sys2Proof.Machine
end

