-- ==== Sys2Proof/Machine/Flags.lean ====
section
/-! DEFINITION. STATUS: the completion code numbers, the word the host reads, and who changes CODE and ANYERR
(10_state.md R22, R34; 60_exceptions.md R151). These are the block's only flags. -/

namespace Sys2Proof.Machine

/-- The number of a completion code in STATUS.CODE (60_exceptions.md R151). -/
def Completion.toCode : Completion → BitVec 4
  | .ok => 0
  | .invalidLength => 1
  | .bufferTooSmall => 2
  | .allocationFailure => 3
  | .addressOutOfRange => 4
  | .illegalCommand => 5

/-- STATUS as the host reads it: CODE in bits 3:0, ANYERR in bit 4, zeros above (10_state.md R22). -/
def State.statusWord (s : State) : Word := 0#27 ++ BitVec.ofBool s.anyErr ++ s.code

/-- A host write of STATUS: bit 4 = 1 clears ANYERR; nothing else can be written (10_state.md R22). -/
def State.writeStatus (v : Word) (s : State) : State :=
  if v.getLsbD 4 then { s with anyErr := false } else s

/-- STATUS after an error: CODE is the error's code and ANYERR is 1 (60_exceptions.md R158). -/
def State.flagError (e : Completion) (s : State) : State := { s with code := e.toCode, anyErr := true }

/-- STATUS after a success: CODE = 0, ANYERR as it was (60_exceptions.md R159). -/
def State.flagSuccess (s : State) : State := { s with code := Completion.ok.toCode }

end Sys2Proof.Machine
end

