-- ==== Sys2Proof/Machine/Operands.lean ====
section
/-! DEFINITION. The operands of the commands, as the naturals that address and length arithmetic is done on
(00_scope.md R12, 30_encoding.md R78). -/

namespace Sys2Proof.Machine

/-- `x[CHR_ADDR]`, the packed side of a codec command (10_state.md R23). -/
def State.chrBase (s : State) : Nat := s.chrAddr.toNat

/-- `x[PIX_ADDR]`, the pixel side of a codec command and the base of the pixel buffer (10_state.md R24). -/
def State.pixBase (s : State) : Nat := s.pixAddr.toNat

/-- `x[LEN]`, the source length of DECB and ENCB (10_state.md R25). -/
def State.srcLen (s : State) : Nat := s.len.toNat

/-- `x[CAP]`, the destination capacity or the pixel buffer's size (10_state.md R26). -/
def State.capacity (s : State) : Nat := s.cap.toNat

/-- PixOffset: `off = Y*8 + X`, neither masked (41_pixel_access.md R130). -/
def pixOffset (x y : Nat) : Nat := y * 8 + x

/-- The palette entry an index names: its low 2 bits, `IDX & 3`, which is the index modulo 4
(10_state.md R31, 30_encoding.md R78). -/
def palIndex (idx : Nat) : Fin 4 := ⟨idx % 4, Nat.mod_lt idx (by decide)⟩

end Sys2Proof.Machine
end

