-- ==== Sys2Proof/Machine/Ops.lean ====
section
/-! DEFINITION. The operations every command is written over: the pseudocode primitives of 00_scope.md R13, the
two ways a command ends (60_exceptions.md R158, R159), the register window, and the reset input. -/

namespace Sys2Proof.Machine

/-! ## The byte spaces -/

/-- The value a written address holds; none where nothing has written it. -/
def Memory.lookup : Memory → Nat → Option Byte
  | [], _ => none
  | (b, w) :: m, a => if a = b then some w else Memory.lookup m a

/-- A write of one byte: replaces the entry of the address or inserts one in its place. -/
def Memory.write : Memory → Nat → Byte → Memory
  | [], a, v => [(a, v)]
  | (b, w) :: m, a, v =>
    if a < b then (a, v) :: (b, w) :: m
    else if a = b then (a, v) :: m
    else (b, w) :: Memory.write m a v

/-- The addresses rise strictly, from `lo` on, and stay below `size`. -/
def Memory.wfFrom (size : Nat) : Nat → Memory → Bool
  | _, [] => true
  | lo, (a, _) :: m => decide (lo ≤ a) && decide (a < size) && Memory.wfFrom size (a + 1) m

/-- The one canonical form of a space of `size` bytes (20_memory.md R50, R51; log 4). -/
def Memory.wf (size : Nat) (m : Memory) : Bool := Memory.wfFrom size 0 m

/-- `size(S)` (20_memory.md R54). -/
def State.size (s : State) : Space → Nat
  | .chr => s.chrSize
  | .pix => s.pixSize

/-- The written bytes of a space. -/
def State.mem (s : State) : Space → Memory
  | .chr => s.chr
  | .pix => s.pix

/-- `MemRead(S, a, 1)`, with no side effect (20_memory.md R53). A byte that nothing has written since reset reads
as its free value (R68): the ONE place that says what an unlisted address reads as (log 4). -/
def State.memRead (s : State) (sp : Space) (a : Nat) : Byte :=
  match (s.mem sp).lookup a with
  | some v => v
  | none => Config.unwrittenByte sp s.draw a

/-- `MemWrite(S, a, 1, v)` (20_memory.md R53). -/
def State.memWrite (sp : Space) (a : Nat) (v : Byte) (s : State) : State :=
  match sp with
  | .chr => { s with chr := Memory.write s.chr a v }
  | .pix => { s with pix := Memory.write s.pix a v }

/-- `InRange(S, base, n)`: `base + n ≤ size(S)` on unbounded naturals (20_memory.md R54). -/
abbrev State.InRange (s : State) (sp : Space) (base n : Nat) : Prop := base + n ≤ s.size sp

/-- `for i in [0, n)`, counting upward (00_scope.md R13). -/
def forUpTo {α : Type} (n : Nat) (body : Nat → α → α) (a : α) : α :=
  match n with
  | 0 => a
  | k + 1 => body k (forUpTo k body a)

/-! ## The palette register file -/

/-- `PAL[IDX & 3]` (10_state.md R31). -/
def State.palRead (s : State) (idx : Nat) : Color := s.pal[(palIndex idx).val]

/-- `PAL[IDX & 3] <- c` (10_state.md R31). -/
def State.palWrite (idx : Nat) (c : Color) (s : State) : State :=
  { s with pal := s.pal.set (palIndex idx).val c }

/-! ## The two ways a command ends -/

/-- `x[RESULT] <- v`, the value reduced to the register's width (10_state.md R28, 00_scope.md R12). -/
def State.setResult (v : Nat) (s : State) : State := { s with result := BitVec.ofNat 32 v }

/-- `raise E(code)`, the block's one form of exception (60_exceptions.md R158): STATUS.CODE and STATUS.ANYERR are
written and nothing else. No pc or status is saved, no handler entered, no mode changed (R150), and there is no
return operation (R160). -/
def raise (e : Completion) (s : State) : State := s.flagError e

/-- `succeed` (60_exceptions.md R159). -/
def succeed (s : State) : State := s.flagSuccess

/-! ## The register window -/

/-- The register at a word offset of the window; none at a reserved offset, 0x20 to 0x3C (10_state.md R39, R29). -/
def registerAt (off : Nat) : Option RegName :=
  match off with
  | 0x00 => some .cmd
  | 0x04 => some .status
  | 0x08 => some .chrAddr
  | 0x0C => some .pixAddr
  | 0x10 => some .len
  | 0x14 => some .cap
  | 0x18 => some .color
  | 0x1C => some .result
  | _ => none

/-- The offset of a register (10_state.md R39). -/
def registerOffset : RegName → Nat
  | .cmd => 0x00
  | .status => 0x04
  | .chrAddr => 0x08
  | .pixAddr => 0x0C
  | .len => 0x10
  | .cap => 0x14
  | .color => 0x18
  | .result => 0x1C

/-- What a host read of a register returns: CMD reads 0 (10_state.md R21), COLOR's bits 31:24 read 0 (R27). -/
def State.readRegister (s : State) : RegName → Word
  | .cmd => 0
  | .status => s.statusWord
  | .chrAddr => s.chrAddr
  | .pixAddr => s.pixAddr
  | .len => s.len
  | .cap => s.cap
  | .color => s.color.setWidth 32
  | .result => s.result

/-- What a host write of a register other than CMD stores (10_state.md R22 to R28). A write of CMD stores nothing:
it runs a command (R21), which is `execute`'s to say. -/
def State.writeRegister (r : RegName) (v : Word) (s : State) : State :=
  match r with
  | .cmd => s
  | .status => s.writeStatus v
  | .chrAddr => { s with chrAddr := v }
  | .pixAddr => { s with pixAddr := v }
  | .len => { s with len := v }
  | .cap => { s with cap := v }
  | .color => { s with color := v.setWidth 24 }
  | .result => s

/-- The transaction that has just run gave the host this. -/
def State.answer (r : Reply) (s : State) : State := { s with reply := r }

/-! ## The reset input -/

/-- The reset input (70_reset_and_hazards.md R180): every register and palette entry takes its reset value
(10_state.md R37). CHR and PIX are not written, and their contents are unspecified again (R182): nothing is listed,
and the free values are a new draw (log 5). The sizes are parameters, and the transactions that are still to come
are the host's, so both stay (log 14). -/
def State.applyReset (s : State) : State :=
  { State.resetWith s.chrSize s.pixSize with draw := s.draw + 1, pending := s.pending, reply := s.reply }

end Sys2Proof.Machine
end

