-- ==== Sys2Proof/Machine/PaletteCommands.lean ====
section
/-! DEFINITION. The palette commands PINIT, PSET and PGET (42_palette.md). -/

namespace Sys2Proof.Machine

/-- PINIT: every palette entry takes PAL_DEFAULT (R140). -/
def execPinit (s : State) : Host.Outcome State Fault Refusal :=
  .next <| succeed (State.setResult 0 (forUpTo 4 (fun i => State.palWrite i Config.palDefault) s))

/-- PSET: store COLOR in an entry (R141). -/
def execPset (idx : Nat) (s : State) : Host.Outcome State Fault Refusal :=
  .next <| succeed (State.setResult 0 (State.palWrite idx s.color s))

/-- PGET: read an entry into RESULT (R142). -/
def execPget (idx : Nat) (s : State) : Host.Outcome State Fault Refusal :=
  .next <| succeed (State.setResult (s.palRead idx).toNat s)

end Sys2Proof.Machine
end

