-- ==== Sys2Proof/Machine/PixelAccess.lean ====
section
/-! DEFINITION. The pixel commands SETPX and GETPX (41_pixel_access.md). -/

namespace Sys2Proof.Machine

/-- SETPX: store one pixel, V as given, all 8 bits (R131). -/
def execSetpx (x y v : Nat) (s : State) : Host.Outcome State Fault Refusal :=
  .next <|
    if pixOffset x y ≥ s.capacity then raise .bufferTooSmall s
    else if ¬ s.InRange .pix (s.pixBase + pixOffset x y) 1 then raise .addressOutOfRange s
    else succeed (State.setResult 0
      (State.memWrite .pix (s.pixBase + pixOffset x y) (BitVec.ofNat 8 v) s))

/-- GETPX: read one pixel, unmasked (R132). -/
def execGetpx (x y : Nat) (s : State) : Host.Outcome State Fault Refusal :=
  .next <|
    if pixOffset x y ≥ s.capacity then raise .bufferTooSmall s
    else if ¬ s.InRange .pix (s.pixBase + pixOffset x y) 1 then raise .addressOutOfRange s
    else succeed (State.setResult (s.memRead .pix (s.pixBase + pixOffset x y)).toNat s)

end Sys2Proof.Machine
end

