-- ==== Sys2Proof/Machine/TileCodec.lean ====
section
/-! DEFINITION. The tile codec: the bit-plane functions and the commands DECT, ENCT, DECB, ENCB (40_tile_codec.md). -/

namespace Sys2Proof.Machine

/-- DemuxPixel (R100): column c of the plane bytes, column 0 in bit 7. -/
def demuxPixel (p1 p2 : Byte) (c : Nat) : Byte :=
  ((p1 >>> (7 - c)) &&& 1#8) ||| (((p2 >>> (7 - c)) &&& 1#8) <<< 1)

/-- One of MuxRow's 8 steps: both accumulators shift left, and the pixel's bits 0 and 1 enter (R101). -/
def muxStep (acc : Byte × Byte) (q : Byte) : Byte × Byte :=
  ((acc.1 <<< 1) ||| (q &&& 1#8), (acc.2 <<< 1) ||| ((q &&& 2#8) >>> 1))

/-- MuxRow (R101): the shift-accumulate over the pixels of one row, left to right, from zero. -/
def muxRow (q : List Byte) : Byte × Byte := q.foldl muxStep (0#8, 0#8)

/-- One row i of DecodeTileAt (R102). -/
def decodeRow (c p i : Nat) (s : State) : State :=
  let p1 := s.memRead .chr (c + i)
  let p2 := s.memRead .chr (c + 8 + i)
  forUpTo 8 (fun index => State.memWrite .pix (p + i * 8 + index) (demuxPixel p1 p2 index)) s

/-- DecodeTileAt(c, p) (R102): one direction of the round trip of R108. -/
def decodeTileAt (c p : Nat) (s : State) : State := forUpTo 8 (decodeRow c p) s

/-- The 8 pixel bytes q[0..7] of one row of the pixel tile at p (R103). -/
def readRow (p row : Nat) (s : State) : List Byte :=
  (List.range 8).map fun k => s.memRead .pix (p + row * 8 + k)

/-- One row of EncodeTileAt (R103). -/
def encodeRow (p c row : Nat) (s : State) : State :=
  let planes := muxRow (readRow p row s)
  State.memWrite .chr (c + row + 8) planes.2 (State.memWrite .chr (c + row) planes.1 s)

/-- EncodeTileAt(p, c) (R103): the other direction of the round trip of R108. -/
def encodeTileAt (p c : Nat) (s : State) : State := forUpTo 8 (encodeRow p c) s

/-- DECB's loop over n tiles (R106, 20_memory.md R57). -/
def decodeTiles (n c p : Nat) (s : State) : State :=
  forUpTo n (fun t => decodeTileAt (c + 16 * t) (p + 64 * t)) s

/-- ENCB's loop over n tiles (R107, 20_memory.md R57). -/
def encodeTiles (n p c : Nat) (s : State) : State :=
  forUpTo n (fun t => encodeTileAt (p + 64 * t) (c + 16 * t)) s

/-- DECT: decode one tile (R104). -/
def execDect (s : State) : Host.Outcome State Fault Refusal :=
  .next <|
    if s.capacity < 64 then raise .bufferTooSmall s
    else if ¬ s.InRange .chr s.chrBase 16 ∨ ¬ s.InRange .pix s.pixBase 64 then raise .addressOutOfRange s
    else succeed (State.setResult 64 (decodeTileAt s.chrBase s.pixBase s))

/-- ENCT: encode one tile (R105). -/
def execEnct (s : State) : Host.Outcome State Fault Refusal :=
  .next <|
    if s.capacity < 16 then raise .bufferTooSmall s
    else if ¬ s.InRange .pix s.pixBase 64 ∨ ¬ s.InRange .chr s.chrBase 16 then raise .addressOutOfRange s
    else succeed (State.setResult 16 (encodeTileAt s.pixBase s.chrBase s))

/-- DECB: decode a buffer of whole tiles (R106). -/
def execDecb (s : State) : Host.Outcome State Fault Refusal :=
  .next <|
    if s.srcLen % 16 ≠ 0 then raise .invalidLength s
    else if s.capacity < s.srcLen * 4 then raise .bufferTooSmall s
    else if ¬ s.InRange .chr s.chrBase s.srcLen ∨ ¬ s.InRange .pix s.pixBase (s.srcLen * 4) then
      raise .addressOutOfRange s
    else succeed (State.setResult (s.srcLen * 4) (decodeTiles (s.srcLen / 16) s.chrBase s.pixBase s))

/-- ENCB: encode a buffer of whole tiles (R107). -/
def execEncb (s : State) : Host.Outcome State Fault Refusal :=
  .next <|
    if s.srcLen % 64 ≠ 0 then raise .invalidLength s
    else if s.capacity < s.srcLen / 4 then raise .bufferTooSmall s
    else if ¬ s.InRange .pix s.pixBase s.srcLen ∨ ¬ s.InRange .chr s.chrBase (s.srcLen / 4) then
      raise .addressOutOfRange s
    else succeed (State.setResult (s.srcLen / 4) (encodeTiles (s.srcLen / 64) s.pixBase s.chrBase s))

end Sys2Proof.Machine
end

