-- ==== Sys2Proof/Machine/Dispatch.lean ====
section
/-! DEFINITION. exec: the meaning of each command, one arm per constructor of Instr (30_encoding.md R75). -/

namespace Sys2Proof.Machine

def exec (i : Instr) (s : State) : Host.Outcome State Fault Refusal :=
  match i with
  | .dect => Sys2Proof.Machine.execDect s
  | .enct => Sys2Proof.Machine.execEnct s
  | .decb => Sys2Proof.Machine.execDecb s
  | .encb => Sys2Proof.Machine.execEncb s
  | .setpx x y v => Sys2Proof.Machine.execSetpx x y v s
  | .getpx x y => Sys2Proof.Machine.execGetpx x y s
  | .pinit => Sys2Proof.Machine.execPinit s
  | .pset idx => Sys2Proof.Machine.execPset idx s
  | .pget idx => Sys2Proof.Machine.execPget idx s

end Sys2Proof.Machine
end

