-- ==== Sys2Proof/Machine/Bus.lean ====
section
/-! DEFINITION. The host port: what each host transaction does (00_scope.md R9, 60_exceptions.md R169). -/

namespace Sys2Proof.Machine

/-- `Execute(w)` (30_encoding.md R79): run the command that w encodes, or raise IllegalCommand, which is checked
before anything else (60_exceptions.md R152). -/
def execute (w : Word) (s : State) : Host.Outcome State Fault Refusal :=
  match decode w with
  | .command i => exec i s
  | .illegal _ => .next (raise .illegalCommand s)

/-- An aligned 32-bit access inside the window reaches the register (or the reserved offset) it names, and `k` says
what the access does there. An access of another width or alignment is refused, whatever its offset
(10_state.md R38; log 8); an aligned 32-bit access outside the window is a fault (log 7). -/
def atRegister (bytes off : Nat) (k : Option RegName → Host.Outcome State Fault Refusal) :
    Host.Outcome State Fault Refusal :=
  if bytes ≠ 4 ∨ off % 4 ≠ 0 then .refused (.registerAccess bytes off)
  else if 64 ≤ off then .fault (.outsideWindow off)
  else k (registerAt off)

/-- A host read of a register, or of a reserved offset, which returns 0 (10_state.md R29). -/
def readAccess (s : State) : Option RegName → Host.Outcome State Fault Refusal
  | none => .next (s.answer (.word 0))
  | some r => .next (s.answer (.word (s.readRegister r)))

/-- A host write of a register: a write of CMD runs a command (10_state.md R21), a write of a reserved offset is
ignored (R29). -/
def writeAccess (v : Word) (s : State) : Option RegName → Host.Outcome State Fault Refusal
  | none => .next s
  | some .cmd => execute v s
  | some r => .next (State.writeRegister r v s)

/-- One host transaction. A host byte access reaches the bytes of its space (20_memory.md R67) and no other address
(log 6). -/
def transact (t : HostTxn) (s : State) : Host.Outcome State Fault Refusal :=
  match t with
  | .writeReg bytes off v => atRegister bytes off (writeAccess v (s.answer .done))
  | .readReg bytes off => atRegister bytes off (readAccess s)
  | .writeByte sp a v =>
    if a < s.size sp then .next (State.memWrite sp a v (s.answer .done)) else .fault (.noSuchByte sp a)
  | .readByte sp a =>
    if a < s.size sp then .next (s.answer (.byte (s.memRead sp a))) else .fault (.noSuchByte sp a)
  | .reset => .next ((State.applyReset s).answer .done)

/-- The state in which the next transaction runs: the rest are still to come. -/
def State.awaiting (rest : List HostTxn) (s : State) : State := { s with pending := rest }

/-- The transactions with a 32-bit write of a command word to CMD put before them. -/
def State.withCommandWord (w : Word) (s : State) : State := s.awaiting (.writeReg 4 0x00 w :: s.pending)

end Sys2Proof.Machine
end

