-- ==== Sys2Proof/Machine/Step.lean ====
section
/-! DEFINITION. One step of the block: the host's next transaction (00_scope.md R9). -/

namespace Sys2Proof.Machine

/-- One step runs the host's next transaction, whole (20_memory.md R62, R63; 70_reset_and_hazards.md R184). With
none to run the block waits (R181) and nothing changes. -/
def step (s : State) : Host.Outcome State Fault Refusal :=
  match s.pending with
  | [] => .next s
  | t :: rest => transact t (s.awaiting rest)

/-- The state in which the next step runs the command word whose low `nbits` bits are w's: a command word exists
only as the value of one host write to CMD (20_memory.md R65), so that write becomes the next transaction (log 10). -/
def State.withFetchWord (s : State) (nbits w : Nat) : State :=
  s.withCommandWord (BitVec.ofNat 32 (w % 2 ^ nbits))

end Sys2Proof.Machine
end

