-- ==== Sys2Proof/Machine/Assembler.lean ====
section
/-! DEFINITION. The spec's notation for host programs: the assembly lines of 30_encoding.md R80 and the
pseudo-instructions of R81, and the host transactions they stand for. A comment stands for nothing. -/

namespace Sys2Proof.Machine

/-- `<reg>`: a name from 10_state.md or an offset (R80). -/
inductive RegRef where
  | name (r : RegName)
  | offset (off : Nat)
deriving DecidableEq, Repr

/-- One line of R80: one host transaction. -/
inductive AsmLine where
  /-- `WR <reg>, <imm32>`. -/
  | wr (r : RegRef) (imm : Nat)
  /-- `RD <reg>`. -/
  | rd (r : RegRef)
  /-- `WRB CHR|PIX, <addr>, <imm8>`. -/
  | wrb (sp : Space) (addr imm : Nat)
  /-- `RDB CHR|PIX, <addr>`. -/
  | rdb (sp : Space) (addr : Nat)
  /-- A command, its mnemonic with its fields. -/
  | command (i : Instr)
deriving DecidableEq, Repr

/-- A pseudo-instruction (R81). -/
inductive Pseudo where
  /-- `LDTILE <chr>, <pix>`: decode one tile for display. -/
  | ldtile (chr pix : Nat)
  /-- `STTILE <pix>, <chr>`: encode an edited tile back in place. -/
  | sttile (pix chr : Nat)
  /-- `LDLONG <chr>, <pix>`: decode a long sprite. -/
  | ldlong (chr pix : Nat)
  /-- `STLONG <pix>, <chr>`: encode a long sprite back in place. -/
  | stlong (pix chr : Nat)
  /-- `PSETC <idx>, <rgb>`: store a colour. -/
  | psetc (idx rgb : Nat)
deriving DecidableEq, Repr

/-- A line of a host program. -/
inductive SourceLine where
  | plain (l : AsmLine)
  | pseudo (p : Pseudo)
deriving DecidableEq, Repr

/-- The offset a register reference names. -/
def refOffset : RegRef → Nat
  | .name r => registerOffset r
  | .offset off => off

/-- The assembler's check of a line: an imm32 fits 32 bits, an imm8 fits 8, and a command's fields fit theirs (R80).
R80 gives an address no width (log 17). -/
def AsmLine.wf : AsmLine → Bool
  | .wr _ imm => decide (imm < 2 ^ 32)
  | .rd _ => true
  | .wrb _ _ imm => fitsByte imm
  | .rdb _ _ => true
  | .command i => i.wf

/-- The transaction of a line that the assembler accepts; a command assembles to `WR CMD, <word>` (R80). -/
def lineTxn : AsmLine → HostTxn
  | .wr r imm => .writeReg 4 (refOffset r) (BitVec.ofNat 32 imm)
  | .rd r => .readReg 4 (refOffset r)
  | .wrb sp addr imm => .writeByte sp addr (BitVec.ofNat 8 imm)
  | .rdb sp addr => .readByte sp addr
  | .command i => .writeReg 4 (registerOffset .cmd) (encode i)

/-- The lines a pseudo-instruction expands to (R81). -/
def expandPseudo : Pseudo → List AsmLine
  | .ldtile chr pix =>
    [.wr (.name .chrAddr) chr, .wr (.name .pixAddr) pix, .wr (.name .cap) 64, .command .dect]
  | .sttile pix chr =>
    [.wr (.name .pixAddr) pix, .wr (.name .chrAddr) chr, .wr (.name .cap) 16, .command .enct]
  | .ldlong chr pix =>
    [.wr (.name .chrAddr) chr, .wr (.name .pixAddr) pix, .wr (.name .len) 32, .wr (.name .cap) 128,
     .command .decb]
  | .stlong pix chr =>
    [.wr (.name .pixAddr) pix, .wr (.name .chrAddr) chr, .wr (.name .len) 128, .wr (.name .cap) 32,
     .command .encb]
  | .psetc idx rgb => [.wr (.name .color) rgb, .command (.pset idx)]

/-- A program line's plain lines, in order (R81). -/
def expandLine : SourceLine → List AsmLine
  | .plain l => [l]
  | .pseudo p => expandPseudo p

/-- The transactions of a list of plain lines; none where the assembler refuses a line. -/
def assembleLines : List AsmLine → Option (List HostTxn)
  | [] => some []
  | l :: ls =>
    match l.wf, assembleLines ls with
    | true, some ts => some (lineTxn l :: ts)
    | _, _ => none

/-- The transactions of a program, in order (R80, R81; 70_reset_and_hazards.md R189). -/
def assemble (program : List SourceLine) : Option (List HostTxn) :=
  assembleLines (program.flatMap expandLine)

/-- The state whose next steps are the program's transactions (log 10). -/
def State.loadProgram (program : List SourceLine) (s : State) : Option State :=
  (assemble program).map fun ts => s.awaiting ts

end Sys2Proof.Machine
end

