-- ==== Sys2Proof/Safety.lean ====
section
/-! DEFINITION. What counts as a safe state and a safe run, in the terms the statements use. -/

namespace Sys2Proof.Machine

/-- What every reachable state keeps: the sizes within the bounds of 00_scope.md R8, both spaces in canonical form
inside their sizes (20_memory.md R50, R51), and a legal completion code (10_state.md R22). -/
structure State.Inv (s : State) : Prop where
  chrSize_lower : 16 ≤ s.chrSize
  chrSize_upper : s.chrSize ≤ 2 ^ 32
  pixSize_lower : 64 ≤ s.pixSize
  pixSize_upper : s.pixSize ≤ 2 ^ 32
  chr_wf : Memory.wf s.chrSize s.chr = true
  pix_wf : Memory.wf s.pixSize s.pix = true
  code_legal : s.code ∈ [0#4, 1#4, 2#4, 4#4, 5#4]

/-- A transaction to which the spec gives a meaning at the sizes of s: an aligned 32-bit access of the window
(10_state.md R38, R39), an access to a byte of a space (20_memory.md R67), the reset input. -/
def HostTxn.Legal (s : State) : HostTxn → Prop
  | .writeReg bytes off _ => bytes = 4 ∧ off % 4 = 0 ∧ off < 64
  | .readReg bytes off => bytes = 4 ∧ off % 4 = 0 ∧ off < 64
  | .writeByte sp a _ => a < s.size sp
  | .readByte sp a => a < s.size sp
  | .reset => True

/-- A transaction that may write the palette entry of an index: the reset input, or a command PINIT or PSET of that
entry (10_state.md R32). -/
def HostTxn.MayWriteEntry (idx : Nat) : HostTxn → Prop
  | .writeReg _ off w =>
    off = 0x00 ∧ (decode w = .command .pinit ∨ ∃ k, decode w = .command (.pset k) ∧ k % 4 = idx % 4)
  | .reset => True
  | .readReg _ _ => False
  | .writeByte _ _ _ => False
  | .readByte _ _ => False

/-- A transaction that may clear ANYERR: the reset input, or a host write to STATUS with bit 4 = 1
(60_exceptions.md R160). -/
def HostTxn.MayClearAnyErr : HostTxn → Prop
  | .writeReg _ off v => off = 0x04 ∧ v.getLsbD 4 = true
  | .reset => True
  | .readReg _ _ => False
  | .writeByte _ _ _ => False
  | .readByte _ _ => False

/-- The same change applied to the next state, where there is one: to compare two runs that differ in what is
changed. -/
def mapNext (f : State → State) : Host.Outcome State Fault Refusal → Host.Outcome State Fault Refusal
  | .next t => .next (f t)
  | .fault e => .fault e
  | .refused e => .refused e

/-- The colour index that column x of a row has by the packed-tile format (20_memory.md R55): the low bit from plane
1, the high bit from plane 2, bit 7 of each the leftmost column. -/
def colourIndex (plane1 plane2 : Byte) (x : Nat) : Nat :=
  (plane1.getLsbD (7 - x)).toNat + 2 * (plane2.getLsbD (7 - x)).toNat

/-- Address a lies in the span of n bytes at base. -/
abbrev inSpan (base n a : Nat) : Prop := base ≤ a ∧ a < base + n

/-- The conditions under which DECT succeeds (40_tile_codec.md R104). -/
structure State.DectReady (s : State) : Prop where
  cap : 64 ≤ s.cap.toNat
  chr : s.chrAddr.toNat + 16 ≤ s.chrSize
  pix : s.pixAddr.toNat + 64 ≤ s.pixSize

/-- The conditions under which ENCT succeeds (R105). -/
structure State.EnctReady (s : State) : Prop where
  cap : 16 ≤ s.cap.toNat
  pix : s.pixAddr.toNat + 64 ≤ s.pixSize
  chr : s.chrAddr.toNat + 16 ≤ s.chrSize

/-- The conditions under which DECB succeeds (R106). -/
structure State.DecbReady (s : State) : Prop where
  len : s.len.toNat % 16 = 0
  cap : s.len.toNat * 4 ≤ s.cap.toNat
  chr : s.chrAddr.toNat + s.len.toNat ≤ s.chrSize
  pix : s.pixAddr.toNat + s.len.toNat * 4 ≤ s.pixSize

/-- The conditions under which ENCB succeeds (R107). -/
structure State.EncbReady (s : State) : Prop where
  len : s.len.toNat % 64 = 0
  cap : s.len.toNat / 4 ≤ s.cap.toNat
  pix : s.pixAddr.toNat + s.len.toNat ≤ s.pixSize
  chr : s.chrAddr.toNat + s.len.toNat / 4 ≤ s.chrSize

/-- The conditions under which SETPX and GETPX of (x, y) succeed (41_pixel_access.md R131, R132). -/
structure State.PixelReady (s : State) (x y : Nat) : Prop where
  cap : y * 8 + x < s.cap.toNat
  pix : s.pixAddr.toNat + (y * 8 + x) < s.pixSize

end Sys2Proof.Machine
end

