-- ==== Sys2Proof/Certificates/Slice0/Obligations.lean ====
section
/-! DEFINITION. The statements for the provers, in the order of the spec's files. A statement speaks of every state
unless it says otherwise; where it names a condition, that is the spec's own condition for the case. -/

open Sys2Proof Sys2Proof.Machine

/-! ## Reset and the reset input -/

/-- R37: after reset every word of the register window reads 0 (STATUS, CHR_ADDR, PIX_ADDR, LEN, CAP, COLOR, RESULT,
CMD and the reserved offsets), every palette entry holds PAL_DEFAULT = 0x00FF7F, and every byte of CHR and PIX holds
its free value (that form of "unspecified" is the model's, log 4, and so are the uninterpreted sizes, log 3). -/
def Obligations.ResetState : Prop :=
  (∀ off, off % 4 = 0 → off < 64 →
    transact (.readReg 4 off) State.reset = .next (State.reset.answer (.word 0))) ∧
  State.reset.code = 0 ∧ State.reset.anyErr = false ∧ State.reset.chrAddr = 0 ∧ State.reset.pixAddr = 0 ∧
  State.reset.len = 0 ∧ State.reset.cap = 0 ∧ State.reset.color = 0 ∧ State.reset.result = 0 ∧
  (∀ idx, State.reset.palRead idx = 0x00FF7F#24) ∧
  (∀ sp a, State.reset.memRead sp a = Config.unwrittenByte sp State.reset.draw a)

/-- R180, R182: whatever the state, the reset input completes and gives every register and palette entry its reset
value; the sizes and the transactions still to come are as they were, and every byte of CHR and PIX holds the free
value of a new draw, whether or not it had been written (the draw is the model's, log 5). -/
def Obligations.ResetInputResetsRegistersAndPalette : Prop :=
  ∀ (s : State) (rest : List HostTxn), s.pending = .reset :: rest →
    ∃ t, step s = .next t ∧
      t.code = 0 ∧ t.anyErr = false ∧ t.chrAddr = 0 ∧ t.pixAddr = 0 ∧ t.len = 0 ∧ t.cap = 0 ∧ t.color = 0 ∧
      t.result = 0 ∧ (∀ idx, t.palRead idx = 0x00FF7F#24) ∧
      t.chrSize = s.chrSize ∧ t.pixSize = s.pixSize ∧ t.pending = rest ∧ t.reply = .done ∧
      (∀ sp a, t.memRead sp a = Config.unwrittenByte sp (s.draw + 1) a)

/-! ## Encoding -/

/-- R75: words written out bit by bit from the bit patterns of R75 decode to the commands they stand for. -/
def Obligations.SampleWordsDecode : Prop :=
  decode 0b00000000000000000000000000000001#32 = .command .dect ∧
  decode 0b00000000000000000000000000000100#32 = .command .encb ∧
  decode 0b00001001000000100000010100000101#32 = .command (.setpx 5 2 9) ∧
  decode 0b00000000000000100000010100000110#32 = .command (.getpx 5 2) ∧
  decode 0b00000000000000000000000000000111#32 = .command .pinit ∧
  decode 0b00000000000000000000010000001000#32 = .command (.pset 4) ∧
  decode 0b00000000000000001111111100001001#32 = .command (.pget 255)

/-- Decode and encode agree: for every well-formed command, every operand at every value its field admits. -/
def Obligations.DecodeOfEncode : Prop :=
  ∀ i : Instr, i.wf = true → decode (encode i) = .command i

/-- R72 to R75: the word of every well-formed command, as a number: OP in bits 7:0, X or IDX in bits 15:8, Y in bits
23:16, V in bits 31:24, and zeros in the reserved bits. -/
def Obligations.EncodedWords : Prop :=
  ∀ i : Instr, i.wf = true → (encode i).toNat =
    match i with
    | .dect => 0x01
    | .enct => 0x02
    | .decb => 0x03
    | .encb => 0x04
    | .setpx x y v => v * 2 ^ 24 + y * 2 ^ 16 + x * 2 ^ 8 + 0x05
    | .getpx x y => y * 2 ^ 16 + x * 2 ^ 8 + 0x06
    | .pinit => 0x07
    | .pset idx => idx * 2 ^ 8 + 0x08
    | .pget idx => idx * 2 ^ 8 + 0x09

/-- Each legal word has one meaning: a word that decodes to a command is that command's encoding, and the command is
well-formed. -/
def Obligations.EncodeOfDecode : Prop :=
  ∀ (w : Word) (i : Instr), decode w = .command i → i.wf = true ∧ encode i = w

/-- R75, R79: the decoder agrees with the match and mask of the opcode map on all 2^32 words: a word that decodes to a
command selects that command's row, a word that is illegal selects no row, and no word selects two rows. -/
def Obligations.DecodeAgreesWithOpcodeMap : Prop :=
  (∀ (w : Word) (i : Instr), decode w = .command i → opcodeRow i ∈ opcodeMap ∧ (opcodeRow i).selects w = true) ∧
  (∀ (w : Word) (why : Illegal), decode w = .illegal why → ∀ r ∈ opcodeMap, r.selects w = false) ∧
  (∀ (w : Word), ∀ r ∈ opcodeMap, ∀ r' ∈ opcodeMap, r.selects w = true → r'.selects w = true → r = r')

/-- R76: OP = 0x00 and OP = 0x0A to 0xFF select no command; the word ends with IllegalCommand, code 5, and changes
nothing but STATUS. -/
def Obligations.ReservedOpcodeIsIllegal : Prop :=
  ∀ (w : Word) (s : State), (w.toNat % 256 = 0 ∨ 0x0A ≤ w.toNat % 256) →
    (∀ i, decode w ≠ .command i) ∧ execute w s = .next { s with code := 5, anyErr := true }

/-- R77, R152: a word with a defined OP and a 1 in a reserved bit of its format (bits 31:8 of format N, bits 31:24 of
GETPX, bits 31:16 of format C) matches no row of the opcode map, ends with IllegalCommand, and changes nothing but
STATUS. -/
def Obligations.ReservedFieldIsIllegal : Prop :=
  ∀ (w : Word) (s : State),
    ((w.toNat % 256 ∈ [0x01, 0x02, 0x03, 0x04, 0x07] ∧ w.toNat / 2 ^ 8 ≠ 0) ∨
      (w.toNat % 256 = 0x06 ∧ w.toNat / 2 ^ 24 ≠ 0) ∨
      (w.toNat % 256 ∈ [0x08, 0x09] ∧ w.toNat / 2 ^ 16 ≠ 0)) →
    (∀ i, decode w ≠ .command i) ∧ (∀ r ∈ opcodeMap, r.selects w = false) ∧
      execute w s = .next { s with code := 5, anyErr := true }

/-! ## The step and the host port -/

/-- R79, R184: a step whose next transaction is a write of CMD with a word that decodes to a command runs exactly that
command, with the transaction taken off the list and its reply given; and so does the step after a command word is
placed by withFetchWord. -/
def Obligations.StepRunsDecodedCommand : Prop :=
  (∀ (s : State) (rest : List HostTxn) (w : Word) (i : Instr), s.pending = .writeReg 4 0x00 w :: rest →
    decode w = .command i → step s = exec i { s with pending := rest, reply := .done }) ∧
  (∀ (s : State) (nbits w : Nat) (i : Instr), decodeTableWord nbits w = some i →
    step (s.withFetchWord nbits w) = exec i { s with reply := .done })

/-- R181: with no transaction to run the block waits, and nothing changes. -/
def Obligations.BlockWaitsForHost : Prop :=
  ∀ s : State, s.pending = [] → step s = .next s

/-- R38: a register access of another width, or at an offset that is not a multiple of 4, is refused, outside the window
too (that this check comes before the check of the window is the model's reading, log 8); R39, R162, R184: an aligned
32-bit access inside the window completes. -/
def Obligations.NarrowOrMisalignedAccessIsRefused : Prop :=
  ∀ (s : State) (rest : List HostTxn) (bytes off : Nat) (v : Word) (acc : HostTxn),
    (acc = .writeReg bytes off v ∨ acc = .readReg bytes off) → s.pending = acc :: rest →
    ((bytes ≠ 4 ∨ off % 4 ≠ 0) → step s = .refused (.registerAccess bytes off)) ∧
    (bytes = 4 → off % 4 = 0 → off < 64 → ∃ t, step s = .next t)

/-- R29: a host read of a reserved offset returns 0, and a host write to one changes no state of the block. -/
def Obligations.ReservedOffsetsReadZeroIgnoreWrites : Prop :=
  ∀ (s : State) (rest : List HostTxn) (off : Nat), 0x20 ≤ off → off ≤ 0x3C → off % 4 = 0 →
    (s.pending = .readReg 4 off :: rest → step s = .next { s with pending := rest, reply := .word 0 }) ∧
    (∀ v, s.pending = .writeReg 4 off v :: rest → step s = .next { s with pending := rest, reply := .done })

/-- R21 to R28: what a host read of each of the eight registers returns, STATUS with CODE in bits 3:0 and ANYERR in bit
4; a read changes nothing else. -/
def Obligations.RegisterReads : Prop :=
  ∀ (s : State) (rest : List HostTxn) (off : Nat), s.pending = .readReg 4 off :: rest →
    (off = 0x00 → step s = .next { s with pending := rest, reply := .word 0 }) ∧
    (off = 0x04 → ∃ v : Word, v.toNat = s.code.toNat + 16 * s.anyErr.toNat ∧
      step s = .next { s with pending := rest, reply := .word v }) ∧
    (off = 0x08 → step s = .next { s with pending := rest, reply := .word s.chrAddr }) ∧
    (off = 0x0C → step s = .next { s with pending := rest, reply := .word s.pixAddr }) ∧
    (off = 0x10 → step s = .next { s with pending := rest, reply := .word s.len }) ∧
    (off = 0x14 → step s = .next { s with pending := rest, reply := .word s.cap }) ∧
    (off = 0x18 → ∃ v : Word, v.toNat = s.color.toNat ∧ step s = .next { s with pending := rest, reply := .word v }) ∧
    (off = 0x1C → step s = .next { s with pending := rest, reply := .word s.result })

/-- R23 to R28: what a host write of each register other than CMD and STATUS stores, and that it stores nothing else:
COLOR keeps bits 23:0, RESULT ignores the write. -/
def Obligations.RegisterWrites : Prop :=
  ∀ (s : State) (rest : List HostTxn) (off : Nat) (v : Word), s.pending = .writeReg 4 off v :: rest →
    (off = 0x08 → step s = .next { s with chrAddr := v, pending := rest, reply := .done }) ∧
    (off = 0x0C → step s = .next { s with pixAddr := v, pending := rest, reply := .done }) ∧
    (off = 0x10 → step s = .next { s with len := v, pending := rest, reply := .done }) ∧
    (off = 0x14 → step s = .next { s with cap := v, pending := rest, reply := .done }) ∧
    (off = 0x18 → ∃ c : Color, c.toNat = v.toNat % 2 ^ 24 ∧
      step s = .next { s with color := c, pending := rest, reply := .done }) ∧
    (off = 0x1C → step s = .next { s with pending := rest, reply := .done })

/-- R22: STATUS reads CODE in bits 3:0, ANYERR in bit 4 and zeros above; a host write to STATUS clears ANYERR when its
bit 4 is 1, leaves it when that bit is 0, and changes nothing else; every command leaves a legal CODE, sets ANYERR
exactly when that CODE is not 0, and leaves it as it was otherwise; a step that runs no command and no reset leaves
CODE; and the reset input leaves both 0. -/
def Obligations.StatusRegister : Prop :=
  (∀ (s : State) (rest : List HostTxn), s.pending = .readReg 4 0x04 :: rest →
    ∃ v : Word, v.toNat = s.code.toNat + 16 * s.anyErr.toNat ∧
      step s = .next { s with pending := rest, reply := .word v }) ∧
  (∀ (s : State) (rest : List HostTxn) (v : Word), s.pending = .writeReg 4 0x04 v :: rest →
    step s = .next { s with anyErr := s.anyErr && !v.getLsbD 4, pending := rest, reply := .done }) ∧
  (∀ (w : Word) (s t : State), execute w s = .next t →
    t.code ∈ [0#4, 1#4, 2#4, 4#4, 5#4] ∧ t.anyErr = (s.anyErr || t.code != 0)) ∧
  (∀ (s t : State), step s = .next t → (∀ w, s.pending.head? ≠ some (.writeReg 4 0x00 w)) →
    s.pending.head? ≠ some .reset → t.code = s.code) ∧
  (∀ (s t : State), step s = .next t → s.pending.head? = some .reset → t.code = 0 ∧ t.anyErr = false)

/-- R67, R53, R52: between commands the host writes any byte of CHR or PIX: that byte reads as written, every other
byte of either space reads as before, and nothing else changes; and a read returns the byte and changes nothing. -/
def Obligations.HostByteAccess : Prop :=
  (∀ (s : State) (rest : List HostTxn) (sp : Space) (a : Nat) (v : Byte),
    s.pending = .writeByte sp a v :: rest → a < s.size sp →
    ∃ t, step s = .next t ∧ t = { s with chr := t.chr, pix := t.pix, pending := rest, reply := .done } ∧
      (sp = .chr → t.pix = s.pix) ∧ (sp = .pix → t.chr = s.chr) ∧
      ∀ sp' b, t.memRead sp' b = if sp' = sp ∧ b = a then v else s.memRead sp' b) ∧
  (∀ (s : State) (rest : List HostTxn) (sp : Space) (a : Nat),
    s.pending = .readByte sp a :: rest → a < s.size sp →
    step s = .next { s with pending := rest, reply := .byte (s.memRead sp a) })

/-- The model's choice where the spec says nothing (log 6, log 7): a host byte access outside its space, and an aligned
32-bit register access outside the 64-byte window, stop with a fault of their own name. -/
def Obligations.AccessOutsideSpaceOrWindowStops : Prop :=
  ∀ (s : State) (rest : List HostTxn) (acc : HostTxn), s.pending = acc :: rest →
    (∀ sp a, s.size sp ≤ a → (acc = .readByte sp a ∨ ∃ v, acc = .writeByte sp a v) →
      step s = .fault (.noSuchByte sp a)) ∧
    (∀ off, 64 ≤ off → off % 4 = 0 → (acc = .readReg 4 off ∨ ∃ v, acc = .writeReg 4 off v) →
      step s = .fault (.outsideWindow off))

/-- R189: a run of finitely many transactions to each of which the spec gives a meaning ends, each of them done (the
list of transactions is the model's, log 1). -/
def Obligations.LegalRunCompletes : Prop :=
  ∀ s : State, (∀ t ∈ s.pending, t.Legal s) →
    ∃ u : State, Host.Core.run Sys2Proof.core s.pending.length s = .next u ∧ u.pending = [] ∧
      u.chrSize = s.chrSize ∧ u.pixSize = s.pixSize

/-- R68: until a byte is written or the reset input is applied, a byte that nothing has written keeps the one value
drawn for it: a step that leaves the byte unlisted leaves its value, and a byte once written stays written. -/
def Obligations.UnwrittenByteKeepsItsValue : Prop :=
  ∀ (s t : State), step s = .next t → s.pending.head? ≠ some .reset → ∀ sp a,
    ((t.mem sp).lookup a = none → (s.mem sp).lookup a = none ∧ t.memRead sp a = s.memRead sp a) ∧
    t.draw = s.draw

/-! ## The tile codec -/

/-- R104, R102, R100, R55, R56: under its conditions DECT completes; the pixel at column x and row y of the 64 bytes
at PIX_ADDR is the colour index of plane bytes CHR[CHR_ADDR + y] and CHR[CHR_ADDR + 8 + y], every other byte of either
space is as before, RESULT is 64, CODE is 0, and nothing else changes. -/
def Obligations.DectDecodesTile : Prop :=
  ∀ s : State, s.DectReady → ∃ t, exec .dect s = .next t ∧
    t = { s with pix := t.pix, result := 64, code := 0 } ∧
    (∀ x y, x < 8 → y < 8 → (t.memRead .pix (s.pixBase + y * 8 + x)).toNat =
      colourIndex (s.memRead .chr (s.chrBase + y)) (s.memRead .chr (s.chrBase + 8 + y)) x) ∧
    (∀ sp a, ¬ (sp = .pix ∧ inSpan s.pixBase 64 a) → t.memRead sp a = s.memRead sp a)

/-- R105, R103, R101, R55: under its conditions ENCT completes; for the pixel byte q at column x and row y of the 64
bytes at PIX_ADDR, whatever its value, bit 7-x of CHR[CHR_ADDR + y] is q[0] and bit 7-x of CHR[CHR_ADDR + 8 + y] is
q[1]; every other byte of either space is as before, RESULT is 16, CODE is 0, and nothing else changes. -/
def Obligations.EnctEncodesTile : Prop :=
  ∀ s : State, s.EnctReady → ∃ t, exec .enct s = .next t ∧
    t = { s with chr := t.chr, result := 16, code := 0 } ∧
    (∀ x y, x < 8 → y < 8 →
      (t.memRead .chr (s.chrBase + y)).getLsbD (7 - x) = (s.memRead .pix (s.pixBase + y * 8 + x)).getLsbD 0 ∧
      (t.memRead .chr (s.chrBase + 8 + y)).getLsbD (7 - x) = (s.memRead .pix (s.pixBase + y * 8 + x)).getLsbD 1) ∧
    (∀ sp a, ¬ (sp = .chr ∧ inSpan s.chrBase 16 a) → t.memRead sp a = s.memRead sp a)

/-- R106, R57: under its conditions DECB completes; for every tile k of the LEN/16 tiles, the pixel at column x and row
y of the 64 bytes at PIX_ADDR + 64*k is the colour index of the plane bytes of the 16 bytes at CHR_ADDR + 16*k; every
other byte is as before, RESULT is LEN*4, CODE is 0, and nothing else changes. LEN = 0 is one of the cases. -/
def Obligations.DecbDecodesBuffer : Prop :=
  ∀ s : State, s.DecbReady → ∃ t, exec .decb s = .next t ∧
    t = { s with pix := t.pix, result := t.result, code := 0 } ∧ t.result.toNat = s.len.toNat * 4 ∧
    (∀ k x y, k < s.len.toNat / 16 → x < 8 → y < 8 →
      (t.memRead .pix (s.pixBase + 64 * k + y * 8 + x)).toNat =
        colourIndex (s.memRead .chr (s.chrBase + 16 * k + y)) (s.memRead .chr (s.chrBase + 16 * k + 8 + y)) x) ∧
    (∀ sp a, ¬ (sp = .pix ∧ inSpan s.pixBase (s.len.toNat * 4) a) → t.memRead sp a = s.memRead sp a)

/-- R107, R57: under its conditions ENCB completes; for every tile k of the LEN/64 tiles, the 16 bytes at CHR_ADDR +
16*k hold bits 0 and 1 of the 64 pixel bytes at PIX_ADDR + 64*k, plane by plane; every other byte is as before, RESULT
is LEN/4, CODE is 0, and nothing else changes. LEN = 0 is one of the cases. -/
def Obligations.EncbEncodesBuffer : Prop :=
  ∀ s : State, s.EncbReady → ∃ t, exec .encb s = .next t ∧
    t = { s with chr := t.chr, result := t.result, code := 0 } ∧ t.result.toNat = s.len.toNat / 4 ∧
    (∀ k x y, k < s.len.toNat / 64 → x < 8 → y < 8 →
      (t.memRead .chr (s.chrBase + 16 * k + y)).getLsbD (7 - x) =
        (s.memRead .pix (s.pixBase + 64 * k + y * 8 + x)).getLsbD 0 ∧
      (t.memRead .chr (s.chrBase + 16 * k + 8 + y)).getLsbD (7 - x) =
        (s.memRead .pix (s.pixBase + 64 * k + y * 8 + x)).getLsbD 1) ∧
    (∀ sp a, ¬ (sp = .chr ∧ inSpan s.chrBase (s.len.toNat / 4) a) → t.memRead sp a = s.memRead sp a)

/-- R109: a successful DECB with LEN = L writes exactly L*4 PIX bytes and sets RESULT = L*4; a successful ENCB with LEN
= M writes exactly M/4 CHR bytes and sets RESULT = M/4. Every byte of the span is written: it is listed with the decoded
pixel (for DECB) or the plane byte (for ENCB) of its place, whatever it held before; and no byte outside is touched. -/
def Obligations.LengthLaws : Prop :=
  (∀ s t : State, exec .decb s = .next t → t.code = 0 →
    s.len.toNat % 16 = 0 ∧ t.result.toNat = s.len.toNat * 4 ∧
    (∀ a, inSpan s.pixBase (s.len.toNat * 4) a → ∃ b : Byte, t.pix.lookup a = some b ∧ b.toNat = colourIndex
      (s.memRead .chr (s.chrBase + 16 * ((a - s.pixBase) / 64) + (a - s.pixBase) % 64 / 8))
      (s.memRead .chr (s.chrBase + 16 * ((a - s.pixBase) / 64) + 8 + (a - s.pixBase) % 64 / 8))
      ((a - s.pixBase) % 8)) ∧
    (∀ a, ¬ inSpan s.pixBase (s.len.toNat * 4) a → t.pix.lookup a = s.pix.lookup a)) ∧
  (∀ s t : State, exec .encb s = .next t → t.code = 0 →
    s.len.toNat % 64 = 0 ∧ t.result.toNat = s.len.toNat / 4 ∧
    (∀ a, inSpan s.chrBase (s.len.toNat / 4) a → ∃ b : Byte, t.chr.lookup a = some b ∧ ∀ x < 8, b.getLsbD (7 - x) =
      (s.memRead .pix (s.pixBase + 64 * ((a - s.chrBase) / 16) + (a - s.chrBase) % 8 * 8 + x)).getLsbD
        ((a - s.chrBase) % 16 / 8)) ∧
    (∀ a, ¬ inSpan s.chrBase (s.len.toNat / 4) a → t.chr.lookup a = s.chr.lookup a))

/-- R106: DECB with LEN = 16 writes the same memory and RESULT as DECT, and ENCB with LEN = 64 as ENCT: the two
commands end in the same state, errors included. -/
def Obligations.OneTileBufferIsTile : Prop :=
  (∀ s : State, s.len = 16 → exec .decb s = exec .dect s) ∧
  (∀ s : State, s.len = 64 → exec .encb s = exec .enct s)

/-- R108 for one tile: DECT and then ENCT give every byte of CHR back; ENCT and then DECT give every byte k of the
pixel tile its own bits 1:0, and so give every byte of PIX back when the 64 bytes are all in [0, 3]. -/
def Obligations.TileRoundTrip : Prop :=
  ∀ s : State, s.DectReady → ∃ t u v w,
    exec .dect s = .next t ∧ exec .enct t = .next u ∧ (∀ a, u.memRead .chr a = s.memRead .chr a) ∧
    exec .enct s = .next v ∧ exec .dect v = .next w ∧
    (∀ a, inSpan s.pixBase 64 a → w.memRead .pix a = s.memRead .pix a &&& 3#8) ∧
    ((∀ a, inSpan s.pixBase 64 a → (s.memRead .pix a).toNat ≤ 3) → ∀ a, w.memRead .pix a = s.memRead .pix a)

/-- R108 for buffers of n tiles, LEN rewritten between the two commands (R186): DECB with LEN = 16*n and then ENCB with
LEN = 64*n give every byte of CHR back; ENCB and then DECB give every byte of the pixel buffer its own bits 1:0, and so
give every byte of PIX back when the bytes of the buffer are all in [0, 3]. -/
def Obligations.BufferRoundTrip : Prop :=
  ∀ (s : State) (n : Nat), 64 * n ≤ s.cap.toNat → s.chrAddr.toNat + 16 * n ≤ s.chrSize →
    s.pixAddr.toNat + 64 * n ≤ s.pixSize → ∃ t u v w,
    exec .decb { s with len := BitVec.ofNat 32 (16 * n) } = .next t ∧
    exec .encb { t with len := BitVec.ofNat 32 (64 * n) } = .next u ∧
    (∀ a, u.memRead .chr a = s.memRead .chr a) ∧
    exec .encb { s with len := BitVec.ofNat 32 (64 * n) } = .next v ∧
    exec .decb { v with len := BitVec.ofNat 32 (16 * n) } = .next w ∧
    (∀ a, inSpan s.pixBase (64 * n) a → w.memRead .pix a = s.memRead .pix a &&& 3#8) ∧
    ((∀ a, inSpan s.pixBase (64 * n) a → (s.memRead .pix a).toNat ≤ 3) →
      ∀ a, w.memRead .pix a = s.memRead .pix a)

/-- R110: no lane reads another lane. Two states that agree on bit 7-x of the two plane bytes of row y decode the same
pixel (x, y), and two states that agree on bits 1:0 of the pixel byte (x, y) encode the same bit 7-x of row y's two
plane bytes, whatever else differs. -/
def Obligations.LanesAreIndependent : Prop :=
  (∀ (s s' t t' : State) (x y : Nat), x < 8 → y < 8 → s.DectReady → s'.DectReady →
    exec .dect s = .next t → exec .dect s' = .next t' →
    (s.memRead .chr (s.chrBase + y)).getLsbD (7 - x) = (s'.memRead .chr (s'.chrBase + y)).getLsbD (7 - x) →
    (s.memRead .chr (s.chrBase + 8 + y)).getLsbD (7 - x) =
      (s'.memRead .chr (s'.chrBase + 8 + y)).getLsbD (7 - x) →
    t.memRead .pix (s.pixBase + y * 8 + x) = t'.memRead .pix (s'.pixBase + y * 8 + x)) ∧
  (∀ (s s' t t' : State) (x y : Nat), x < 8 → y < 8 → s.EnctReady → s'.EnctReady →
    exec .enct s = .next t → exec .enct s' = .next t' →
    s.memRead .pix (s.pixBase + y * 8 + x) &&& 3#8 = s'.memRead .pix (s'.pixBase + y * 8 + x) &&& 3#8 →
    (t.memRead .chr (s.chrBase + y)).getLsbD (7 - x) = (t'.memRead .chr (s'.chrBase + y)).getLsbD (7 - x) ∧
    (t.memRead .chr (s.chrBase + 8 + y)).getLsbD (7 - x) =
      (t'.memRead .chr (s'.chrBase + 8 + y)).getLsbD (7 - x))

/-- R58: a long sprite is 32 packed bytes that decode to a 128-byte image 8 pixels wide and 16 rows high: after DECB
with LEN = 32, GETPX of column x and row y, y up to 15, completes and returns the pixel of tile y/8, row y mod 8. -/
def Obligations.LongSpriteIsOneImage : Prop :=
  ∀ s : State, s.DecbReady → s.len = 32 → ∃ t, exec .decb s = .next t ∧
    ∀ x y, x < 8 → y < 16 → ∃ u, exec (.getpx x y) t = .next u ∧ u.code = 0 ∧
      u.result.toNat = colourIndex (s.memRead .chr (s.chrBase + 16 * (y / 8) + y % 8))
        (s.memRead .chr (s.chrBase + 16 * (y / 8) + 8 + y % 8)) x

/-! ## Pixel access -/

/-- R131, R130: under its conditions SETPX completes; the byte at PIX_ADDR + Y*8 + X holds all 8 bits of V, every other
byte of either space is as before, RESULT and CODE are 0, and nothing else changes. -/
def Obligations.SetpxStoresPixel : Prop :=
  ∀ (s : State) (x y v : Nat), s.PixelReady x y → ∃ t, exec (.setpx x y v) s = .next t ∧
    t = { s with pix := t.pix, result := 0, code := 0 } ∧
    t.memRead .pix (s.pixBase + pixOffset x y) = BitVec.ofNat 8 v ∧
    (∀ sp a, ¬ (sp = .pix ∧ a = s.pixBase + pixOffset x y) → t.memRead sp a = s.memRead sp a)

/-- R132, R130: under its conditions GETPX completes; RESULT is the byte at PIX_ADDR + Y*8 + X, unmasked and extended
with zeros, CODE is 0, and nothing else changes, no byte of either space among it. -/
def Obligations.GetpxReturnsPixel : Prop :=
  ∀ (s : State) (x y : Nat), s.PixelReady x y → ∃ t, exec (.getpx x y) s = .next t ∧
    t = { s with result := t.result, code := 0 } ∧
    t.result.toNat = (s.memRead .pix (s.pixBase + (y * 8 + x))).toNat ∧
    (∀ sp a, t.memRead sp a = s.memRead sp a)

/-- R133: wherever SETPX(X, Y, V) succeeds, a GETPX(X, Y) issued next, with PIX_ADDR and CAP unchanged, succeeds with
RESULT = V extended with zeros, for all 256 values of V. -/
def Obligations.SetThenGetReturnsValue : Prop :=
  ∀ (s t : State) (x y v : Nat), v < 256 → exec (.setpx x y v) s = .next t → t.code = 0 →
    ∃ u, exec (.getpx x y) t = .next u ∧ u.code = 0 ∧ u.result.toNat = v

/-! ## The palette -/

/-- R140: PINIT completes; every entry of PAL is 0x00FF7F, RESULT and CODE are 0, and nothing else changes. -/
def Obligations.PinitFillsPalette : Prop :=
  ∀ s : State, ∃ t, exec .pinit s = .next t ∧ t = { s with pal := t.pal, result := 0, code := 0 } ∧
    (∀ idx, t.palRead idx = 0x00FF7F#24) ∧ (∀ sp a, t.memRead sp a = s.memRead sp a)

/-- R141, R31: PSET completes for every index; entry IDX mod 4 of PAL holds COLOR, the other three are as before,
RESULT and CODE are 0, and nothing else changes. -/
def Obligations.PsetStoresColour : Prop :=
  ∀ (s : State) (idx : Nat), ∃ t, exec (.pset idx) s = .next t ∧
    t = { s with pal := t.pal, result := 0, code := 0 } ∧
    (∀ j : Fin 4, t.pal[j] = if j.val = idx % 4 then s.color else s.pal[j]) ∧
    (∀ sp a, t.memRead sp a = s.memRead sp a)

/-- R142, R31: PGET completes for every index; RESULT is entry IDX mod 4 of PAL extended with zeros, CODE is 0, and
nothing else changes. -/
def Obligations.PgetReturnsColour : Prop :=
  ∀ (s : State) (idx : Nat), ∃ t, exec (.pget idx) s = .next t ∧
    t = { s with result := t.result, code := 0 } ∧
    (∀ j : Fin 4, j.val = idx % 4 → t.result.toNat = s.pal[j].toNat) ∧
    (∀ sp a, t.memRead sp a = s.memRead sp a)

/-- R143: COLOR = c, then PSET(i), then any transactions that do not write entry i (no PINIT, no PSET to it, and no
reset input), then PGET(j) with j mod 4 = i mod 4: the run completes and RESULT is c[23:0] extended with zeros. -/
def Obligations.PaletteWrapLaw : Prop :=
  ∀ (s : State) (c : Word) (i j : Nat) (between : List HostTxn), i < 256 → j < 256 → j % 4 = i % 4 →
    (∀ t ∈ between, t.Legal s ∧ ¬ t.MayWriteEntry i) →
    ∃ u : State, Host.Core.run Sys2Proof.core (between.length + 3)
        { s with pending := .writeReg 4 0x18 c :: .writeReg 4 0x00 (encode (.pset i)) ::
                   (between ++ [.writeReg 4 0x00 (encode (.pget j))]) } = .next u ∧
      u.code = 0 ∧ u.result.toNat = c.toNat % 2 ^ 24

/-- R32: only PINIT, PSET and the reset input change PAL: a step that changes an entry ran one of them. -/
def Obligations.PaletteWritersAreNamed : Prop :=
  ∀ (s t : State) (idx : Nat), step s = .next t → t.palRead idx ≠ s.palRead idx →
    ∃ acc, s.pending.head? = some acc ∧ acc.MayWriteEntry idx

/-- R144: no codec or pixel command reads PAL: with another palette it does the same to everything else. And no
palette command reads CHR, PIX, CHR_ADDR, PIX_ADDR, LEN or CAP: with others it does the same to everything else. -/
def Obligations.PaletteAndCodecAreSeparate : Prop :=
  (∀ (i : Instr) (s : State) (p : Vector Color 4), (∀ k, i ≠ .pset k) → (∀ k, i ≠ .pget k) → i ≠ .pinit →
    exec i { s with pal := p } = mapNext (fun t => { t with pal := p }) (exec i s)) ∧
  (∀ (i : Instr) (s : State) (m n : Memory) (a b l k : Word), (i = .pinit ∨ ∃ idx, i = .pset idx ∨ i = .pget idx) →
    exec i { s with chr := m, pix := n, chrAddr := a, pixAddr := b, len := l, cap := k } =
      mapNext (fun t => { t with chr := m, pix := n, chrAddr := a, pixAddr := b, len := l, cap := k }) (exec i s))

/-! ## Errors and completion -/

/-- R153, R154, R156, R157: the completion code of every command is the first that applies of IllegalCommand,
InvalidLength, BufferTooSmall, AddressOutOfRange, and 0 where none does. -/
def Obligations.ErrorPriority : Prop :=
  (∀ (w : Word) (s t : State), execute w s = .next t → (∀ i, decode w ≠ .command i) → t.code = 5) ∧
  (∀ s t : State, exec .dect s = .next t → t.code =
    if s.cap.toNat < 64 then 2
    else if s.chrSize < s.chrAddr.toNat + 16 ∨ s.pixSize < s.pixAddr.toNat + 64 then 4 else 0) ∧
  (∀ s t : State, exec .enct s = .next t → t.code =
    if s.cap.toNat < 16 then 2
    else if s.pixSize < s.pixAddr.toNat + 64 ∨ s.chrSize < s.chrAddr.toNat + 16 then 4 else 0) ∧
  (∀ s t : State, exec .decb s = .next t → t.code =
    if s.len.toNat % 16 ≠ 0 then 1 else if s.cap.toNat < s.len.toNat * 4 then 2
    else if s.chrSize < s.chrAddr.toNat + s.len.toNat ∨ s.pixSize < s.pixAddr.toNat + s.len.toNat * 4 then 4
    else 0) ∧
  (∀ s t : State, exec .encb s = .next t → t.code =
    if s.len.toNat % 64 ≠ 0 then 1 else if s.cap.toNat < s.len.toNat / 4 then 2
    else if s.pixSize < s.pixAddr.toNat + s.len.toNat ∨ s.chrSize < s.chrAddr.toNat + s.len.toNat / 4 then 4
    else 0) ∧
  (∀ (i : Instr) (x y v : Nat), (i = .setpx x y v ∨ i = .getpx x y) → ∀ s t : State, exec i s = .next t → t.code =
    if s.cap.toNat ≤ y * 8 + x then 2 else if s.pixSize ≤ s.pixAddr.toNat + (y * 8 + x) then 4 else 0) ∧
  (∀ (i : Instr) (idx : Nat), (i = .pinit ∨ i = .pset idx ∨ i = .pget idx) →
    ∀ s t : State, exec i s = .next t → t.code = 0)

/-- R158: every command word completes, and where the code it leaves is not 0 the state is as before the command but
for STATUS: no byte of CHR or PIX, no entry of PAL, no RESULT and no other register has changed, and ANYERR is 1. -/
def Obligations.ErrorChangesOnlyStatus : Prop :=
  ∀ (w : Word) (s : State), ∃ t, execute w s = .next t ∧
    (t.code ≠ 0 → t = { s with code := t.code, anyErr := true })

/-- R159: a command word that ends with CODE = 0 leaves ANYERR as it was. -/
def Obligations.SuccessLeavesAnyErr : Prop :=
  ∀ (w : Word) (s t : State), execute w s = .next t → t.code = 0 → t.anyErr = s.anyErr

/-- R155: no command ever leaves CODE = 3: no command word does, from any state. -/
def Obligations.AllocationFailureIsNeverRaised : Prop :=
  ∀ (w : Word) (s t : State), execute w s = .next t → t.code ≠ 3

/-- R160: ANYERR stays 1 across any run of steps in which the host neither writes STATUS with bit 4 = 1 nor applies
reset. -/
def Obligations.AnyErrIsSticky : Prop :=
  ∀ (k : Nat) (s u : State), s.anyErr = true → (∀ t ∈ s.pending, ¬ t.MayClearAnyErr) →
    Host.Core.run Sys2Proof.core k s = .next u → u.anyErr = true

/-- R28: a command that ends with CODE = 0 writes RESULT with its rule's value (the pixel byte for GETPX and the colour
for PGET), and a command that ends with CODE ≠ 0 leaves RESULT unchanged; a host write to RESULT is ignored, a host
read returns it, and it is 0 after reset. -/
def Obligations.ResultOfEachCommand : Prop :=
  (∀ (i : Instr) (s t : State), exec i s = .next t → t.code = 0 → t.result.toNat =
    match i with
    | .dect => 64
    | .enct => 16
    | .decb => s.len.toNat * 4
    | .encb => s.len.toNat / 4
    | .getpx x y => (s.memRead .pix (s.pixAddr.toNat + (y * 8 + x))).toNat
    | .pget idx => (s.palRead idx).toNat
    | .setpx _ _ _ => 0
    | .pinit => 0
    | .pset _ => 0) ∧
  (∀ (w : Word) (s t : State), execute w s = .next t → t.code ≠ 0 → t.result = s.result) ∧
  (∀ (s : State) (rest : List HostTxn) (v : Word), s.pending = .writeReg 4 0x1C v :: rest →
    step s = .next { s with pending := rest, reply := .done }) ∧
  (∀ (s : State) (rest : List HostTxn), s.pending = .readReg 4 0x1C :: rest →
    step s = .next { s with pending := rest, reply := .word s.result }) ∧
  State.reset.result = 0

/-! ## Whole-machine rules -/

/-- R186: each operand register keeps its value until the host writes it or reset: a step that changes CHR_ADDR,
PIX_ADDR, LEN, CAP or COLOR is the host's write of that register, or the reset input. -/
def Obligations.OperandRegistersPersist : Prop :=
  ∀ s t : State, step s = .next t → s.pending.head? ≠ some .reset →
    (t.chrAddr ≠ s.chrAddr → ∃ v, s.pending.head? = some (.writeReg 4 0x08 v)) ∧
    (t.pixAddr ≠ s.pixAddr → ∃ v, s.pending.head? = some (.writeReg 4 0x0C v)) ∧
    (t.len ≠ s.len → ∃ v, s.pending.head? = some (.writeReg 4 0x10 v)) ∧
    (t.cap ≠ s.cap → ∃ v, s.pending.head? = some (.writeReg 4 0x14 v)) ∧
    (t.color ≠ s.color → ∃ v, s.pending.head? = some (.writeReg 4 0x18 v))

/-- R50, R51, R52: which commands write which space: a command that succeeds or fails and is not ENCT or ENCB leaves
CHR, and one that is not DECT, DECB or SETPX leaves PIX; none changes a size. -/
def Obligations.SpaceWritersAreNamed : Prop :=
  ∀ (i : Instr) (s t : State), exec i s = .next t →
    (i ≠ .enct → i ≠ .encb → t.chr = s.chr) ∧
    (i ≠ .dect → i ≠ .decb → (∀ x y v, i ≠ .setpx x y v) → t.pix = s.pix) ∧
    t.chrSize = s.chrSize ∧ t.pixSize = s.pixSize ∧ t.draw = s.draw

/-- R34, R25, R27: no command reads STATUS; only DECB and ENCB read LEN; only PSET reads COLOR: with other values there
a command does the same to everything else. -/
def Obligations.UnreadRegistersDoNotMatter : Prop :=
  (∀ (i : Instr) (s t : State) (c : BitVec 4) (e : Bool), exec i s = .next t →
    exec i { s with code := c, anyErr := e } = .next { t with anyErr := e || t.code != 0 }) ∧
  (∀ (i : Instr) (s : State) (l : Word), i ≠ .decb → i ≠ .encb →
    exec i { s with len := l } = mapNext (fun t => { t with len := l }) (exec i s)) ∧
  (∀ (i : Instr) (s : State) (c : Color), (∀ idx, i ≠ .pset idx) →
    exec i { s with color := c } = mapNext (fun t => { t with color := c }) (exec i s))

/-- R80: a WR value that needs more than 32 bits, a WRB value that needs more than 8, and a command field that needs more
than 8 are refused, in a pseudo-instruction's lines too (R81). A line whose values fit is accepted and is one
transaction: WR and RD the 32-bit access at the register's offset (R39) or at the offset named, WRB and RDB the byte
access, a command the write of CMD with its word (R72 to R75). A program is its lines in order, refused when a line is.
An address or offset is not checked: R80 gives it no width (log 17). -/
def Obligations.AssemblerRefusesValuesThatDoNotFit : Prop :=
  (∀ r imm, 2 ^ 32 ≤ imm → assemble [.plain (.wr r imm)] = none) ∧
  (∀ sp addr imm, 256 ≤ imm → assemble [.plain (.wrb sp addr imm)] = none) ∧
  (∀ x y v, 256 ≤ x ∨ 256 ≤ y ∨ 256 ≤ v → assemble [.plain (.command (.setpx x y v))] = none) ∧
  (∀ x y, 256 ≤ x ∨ 256 ≤ y → assemble [.plain (.command (.getpx x y))] = none) ∧
  (∀ idx, 256 ≤ idx →
    assemble [.plain (.command (.pset idx))] = none ∧ assemble [.plain (.command (.pget idx))] = none) ∧
  (∀ a b, 2 ^ 32 ≤ a ∨ 2 ^ 32 ≤ b →
    assemble [.pseudo (.ldtile a b)] = none ∧ assemble [.pseudo (.sttile a b)] = none ∧
    assemble [.pseudo (.ldlong a b)] = none ∧ assemble [.pseudo (.stlong a b)] = none) ∧
  (∀ idx rgb, 256 ≤ idx ∨ 2 ^ 32 ≤ rgb → assemble [.pseudo (.psetc idx rgb)] = none) ∧
  (∀ r off, r = .offset off ∨ (r, off) ∈ [(.name .cmd, 0x00), (.name .status, 0x04), (.name .chrAddr, 0x08),
      (.name .pixAddr, 0x0C), (.name .len, 0x10), (.name .cap, 0x14), (.name .color, 0x18), (.name .result, 0x1C)] →
    assemble [.plain (.rd r)] = some [.readReg 4 off] ∧
    ∀ imm, imm < 2 ^ 32 → ∃ v : Word, v.toNat = imm ∧ assemble [.plain (.wr r imm)] = some [.writeReg 4 off v]) ∧
  (∀ sp addr, assemble [.plain (.rdb sp addr)] = some [.readByte sp addr] ∧
    ∀ imm, imm < 256 → ∃ v : Byte, v.toNat = imm ∧
      assemble [.plain (.wrb sp addr imm)] = some [.writeByte sp addr v]) ∧
  (∀ i : Instr, (∀ x y v, i = .setpx x y v → x < 256 ∧ y < 256 ∧ v < 256) →
    (∀ x y, i = .getpx x y → x < 256 ∧ y < 256) → (∀ idx, i = .pset idx ∨ i = .pget idx → idx < 256) →
    ∃ w : Word, assemble [.plain (.command i)] = some [.writeReg 4 0x00 w] ∧ w.toNat =
      match i with
      | .dect => 0x01
      | .enct => 0x02
      | .decb => 0x03
      | .encb => 0x04
      | .setpx x y v => v * 2 ^ 24 + y * 2 ^ 16 + x * 2 ^ 8 + 0x05
      | .getpx x y => y * 2 ^ 16 + x * 2 ^ 8 + 0x06
      | .pinit => 0x07
      | .pset idx => idx * 2 ^ 8 + 0x08
      | .pget idx => idx * 2 ^ 8 + 0x09) ∧
  (∀ p q : List SourceLine, assemble (p ++ q) =
    match assemble p, assemble q with
    | some ts, some us => some (ts ++ us)
    | _, _ => none)

/-- R81: the effect of each pseudo-instruction is the effect of its lines in order: the program runs to the command of
its expansion in the state with the expansion's registers written. -/
def Obligations.PseudoInstructionsExpand : Prop :=
  ∀ (s : State) (a b : Nat), a < 2 ^ 32 → b < 2 ^ 32 →
    (∃ p, s.loadProgram [.pseudo (.ldtile a b)] = some p ∧ Host.Core.run Sys2Proof.core 4 p =
      exec .dect { s with chrAddr := BitVec.ofNat 32 a, pixAddr := BitVec.ofNat 32 b, cap := 64,
                          pending := [], reply := .done }) ∧
    (∃ p, s.loadProgram [.pseudo (.sttile a b)] = some p ∧ Host.Core.run Sys2Proof.core 4 p =
      exec .enct { s with pixAddr := BitVec.ofNat 32 a, chrAddr := BitVec.ofNat 32 b, cap := 16,
                          pending := [], reply := .done }) ∧
    (∃ p, s.loadProgram [.pseudo (.ldlong a b)] = some p ∧ Host.Core.run Sys2Proof.core 5 p =
      exec .decb { s with chrAddr := BitVec.ofNat 32 a, pixAddr := BitVec.ofNat 32 b, len := 32, cap := 128,
                          pending := [], reply := .done }) ∧
    (∃ p, s.loadProgram [.pseudo (.stlong a b)] = some p ∧ Host.Core.run Sys2Proof.core 5 p =
      exec .encb { s with pixAddr := BitVec.ofNat 32 a, chrAddr := BitVec.ofNat 32 b, len := 128, cap := 32,
                          pending := [], reply := .done }) ∧
    (a < 256 → ∃ p, s.loadProgram [.pseudo (.psetc a b)] = some p ∧ Host.Core.run Sys2Proof.core 2 p =
      exec (.pset a) { s with color := BitVec.ofNat 24 b, pending := [], reply := .done })

/-- The invariant holds of the state after reset, whatever the two uninterpreted sizes are. -/
def Obligations.ResetMeetsInvariant : Prop := State.reset.Inv

/-- Every step keeps the invariant: from any state in which the sizes are within their bounds, both spaces are in
canonical form inside them and CODE is legal, a step that completes leads to such a state. -/
def Obligations.StepKeepsInvariant : Prop :=
  ∀ s t : State, s.Inv → step s = .next t → t.Inv
end

