-- ==== Sys2Proof/Laws/Assembler.lean ====
section
/-! SUPPORT. What the assembler does, said once: it accepts a list of lines exactly when every line is well-formed, and
gives each line its transaction, in order (30_encoding.md R80). -/

namespace Sys2Proof.Machine

/-- The transactions of a list of lines, or none where a line is refused. -/
theorem assembleLines_eq (ls : List AsmLine) :
    assembleLines ls = if ls.all AsmLine.wf then some (ls.map lineTxn) else none := by
  induction ls with
  | nil => rfl
  | cons l ls ih =>
    simp only [assembleLines, ih, List.all_cons, List.map_cons]
    cases l.wf <;> cases ls.all AsmLine.wf <;> rfl

/-- The transactions of a program, or none where a line of it is refused. -/
theorem assemble_eq (p : List SourceLine) :
    assemble p = if (p.flatMap expandLine).all AsmLine.wf then some ((p.flatMap expandLine).map lineTxn) else none :=
  assembleLines_eq _

/-- A program is its lines in order, refused when a part is (R80). -/
theorem assemble_append (p q : List SourceLine) :
    assemble (p ++ q) =
      match assemble p, assemble q with
      | some ts, some us => some (ts ++ us)
      | _, _ => none := by
  simp only [assemble_eq, List.flatMap_append, List.all_append, List.map_append]
  cases (p.flatMap expandLine).all AsmLine.wf <;> cases (q.flatMap expandLine).all AsmLine.wf <;> rfl

end Sys2Proof.Machine
end

