-- ==== Sys2Proof/Laws/Memory.lean ====
section
/-! SUPPORT. The laws of one byte space: read after write, the canonical form, and that a space is determined by
what its addresses hold. -/

namespace Sys2Proof.Machine

@[simp] theorem lookup_nil (a : Nat) : Memory.lookup [] a = none := rfl

/-- Read after write, at every address (20_memory.md R53). -/
@[simp] theorem lookup_write (m : Memory) (a : Nat) (v : Byte) (b : Nat) :
    (Memory.write m a v).lookup b = if b = a then some v else m.lookup b := by
  induction m with
  | nil => rfl
  | cons e m ih =>
    obtain ⟨x, w⟩ := e
    simp only [Memory.write]
    split
    · rfl
    · split
      · subst a
        simp only [Memory.lookup]
        split <;> rfl
      · simp only [Memory.lookup, ih]
        grind

theorem wfFrom_mono {size lo lo' : Nat} {m : Memory} (h : Memory.wfFrom size lo m = true) (hl : lo' ≤ lo) :
    Memory.wfFrom size lo' m = true := by
  cases m with
  | nil => rfl
  | cons e m =>
    simp only [Memory.wfFrom, Bool.and_eq_true, decide_eq_true_eq] at h ⊢
    exact ⟨⟨by omega, h.1.2⟩, h.2⟩

/-- No address below the bound is listed. -/
theorem lookup_below {size lo a : Nat} {m : Memory} (h : Memory.wfFrom size lo m = true) (ha : a < lo) :
    m.lookup a = none := by
  induction m generalizing lo with
  | nil => rfl
  | cons e m ih =>
    simp only [Memory.wfFrom, Bool.and_eq_true, decide_eq_true_eq] at h
    simp only [Memory.lookup]
    rw [if_neg (by omega)]
    exact ih h.2 (by omega)

theorem wfFrom_write {size lo a : Nat} {m : Memory} (v : Byte) (h : Memory.wfFrom size lo m = true)
    (hlo : lo ≤ a) (ha : a < size) : Memory.wfFrom size lo (Memory.write m a v) = true := by
  induction m generalizing lo with
  | nil => simp [Memory.write, Memory.wfFrom, hlo, ha]
  | cons e m ih =>
    obtain ⟨x, w⟩ := e
    simp only [Memory.wfFrom, Bool.and_eq_true, decide_eq_true_eq] at h
    obtain ⟨⟨h1, h2⟩, h3⟩ := h
    simp only [Memory.write]
    split
    · simp only [Memory.wfFrom, Bool.and_eq_true, decide_eq_true_eq]
      exact ⟨⟨hlo, ha⟩, ⟨by omega, h2⟩, h3⟩
    · split
      · subst a
        simp only [Memory.wfFrom, Bool.and_eq_true, decide_eq_true_eq]
        exact ⟨⟨hlo, ha⟩, h3⟩
      · simp only [Memory.wfFrom, Bool.and_eq_true, decide_eq_true_eq]
        exact ⟨⟨h1, h2⟩, ih h3 (by omega)⟩

@[simp] theorem wf_nil (size : Nat) : Memory.wf size [] = true := rfl

/-- A write inside the space keeps the canonical form. -/
theorem wf_write {size a : Nat} {m : Memory} (v : Byte) (h : Memory.wf size m = true) (ha : a < size) :
    Memory.wf size (Memory.write m a v) = true :=
  wfFrom_write v h (Nat.zero_le a) ha

/-- A listed address lies in the space. -/
theorem lt_of_lookup {size lo a : Nat} {m : Memory} {v : Byte} (h : Memory.wfFrom size lo m = true)
    (hv : m.lookup a = some v) : a < size := by
  induction m generalizing lo with
  | nil => simp at hv
  | cons e m ih =>
    simp only [Memory.wfFrom, Bool.and_eq_true, decide_eq_true_eq] at h
    simp only [Memory.lookup] at hv
    split at hv
    · omega
    · exact ih h.2 hv

/-- Equal contents are equal data: two canonical lists that hold the same value, or none, at every address are the
same list. -/
theorem eq_of_lookup_eq {size lo : Nat} {m m' : Memory} (h : Memory.wfFrom size lo m = true)
    (h' : Memory.wfFrom size lo m' = true) (heq : ∀ a, m.lookup a = m'.lookup a) : m = m' := by
  induction m generalizing lo m' with
  | nil =>
    cases m' with
    | nil => rfl
    | cons e m' => have := heq e.1; simp [Memory.lookup] at this
  | cons e m ih =>
    cases m' with
    | nil => have := heq e.1; simp [Memory.lookup] at this
    | cons e' m' =>
      obtain ⟨x, w⟩ := e
      obtain ⟨x', w'⟩ := e'
      simp only [Memory.wfFrom, Bool.and_eq_true, decide_eq_true_eq] at h h'
      have hx : x = x' := by
        by_contra hne
        rcases Nat.lt_or_gt_of_ne hne with hlt | hgt
        · have h1 := heq x
          simp only [Memory.lookup, if_true, if_neg hne] at h1
          rw [lookup_below h'.2 (by omega)] at h1
          cases h1
        · have h1 := heq x'
          simp only [Memory.lookup, if_true, if_neg (Ne.symm hne)] at h1
          rw [lookup_below h.2 (by omega)] at h1
          cases h1
      subst hx
      have hw : w = w' := by simpa [Memory.lookup] using heq x
      subst hw
      congr 1
      refine ih h.2 h'.2 fun a => ?_
      by_cases ha : a = x
      · subst ha
        rw [lookup_below h.2 (by omega), lookup_below h'.2 (by omega)]
      · simpa [Memory.lookup, ha] using heq a

end Sys2Proof.Machine
end

