-- ==== Sys2Proof/Laws/State.lean ====
section
/-! SUPPORT. What each named update of State does to each field, so that no proof unfolds a record update. -/

namespace Sys2Proof.Machine

variable (s : State)


/-! ### raise -/

@[simp] theorem raise_code (e : Completion) : (raise e s).code = e.toCode := rfl
@[simp] theorem raise_anyErr (e : Completion) : (raise e s).anyErr = true := rfl
@[simp] theorem raise_chrAddr (e : Completion) : (raise e s).chrAddr = s.chrAddr := rfl
@[simp] theorem raise_pixAddr (e : Completion) : (raise e s).pixAddr = s.pixAddr := rfl
@[simp] theorem raise_len (e : Completion) : (raise e s).len = s.len := rfl
@[simp] theorem raise_cap (e : Completion) : (raise e s).cap = s.cap := rfl
@[simp] theorem raise_color (e : Completion) : (raise e s).color = s.color := rfl
@[simp] theorem raise_result (e : Completion) : (raise e s).result = s.result := rfl
@[simp] theorem raise_pal (e : Completion) : (raise e s).pal = s.pal := rfl
@[simp] theorem raise_chr (e : Completion) : (raise e s).chr = s.chr := rfl
@[simp] theorem raise_pix (e : Completion) : (raise e s).pix = s.pix := rfl
@[simp] theorem raise_chrSize (e : Completion) : (raise e s).chrSize = s.chrSize := rfl
@[simp] theorem raise_pixSize (e : Completion) : (raise e s).pixSize = s.pixSize := rfl
@[simp] theorem raise_draw (e : Completion) : (raise e s).draw = s.draw := rfl
@[simp] theorem raise_pending (e : Completion) : (raise e s).pending = s.pending := rfl
@[simp] theorem raise_reply (e : Completion) : (raise e s).reply = s.reply := rfl
@[simp] theorem raise_mem (e : Completion) : (raise e s).mem = s.mem := by funext sp; cases sp <;> rfl
@[simp] theorem raise_memRead (e : Completion) : (raise e s).memRead = s.memRead := by funext sp a; cases sp <;> rfl
@[simp] theorem raise_size (e : Completion) : (raise e s).size = s.size := by funext sp; cases sp <;> rfl

/-! ### succeed -/

@[simp] theorem succeed_code : (succeed s).code = 0 := rfl
@[simp] theorem succeed_anyErr : (succeed s).anyErr = s.anyErr := rfl
@[simp] theorem succeed_chrAddr : (succeed s).chrAddr = s.chrAddr := rfl
@[simp] theorem succeed_pixAddr : (succeed s).pixAddr = s.pixAddr := rfl
@[simp] theorem succeed_len : (succeed s).len = s.len := rfl
@[simp] theorem succeed_cap : (succeed s).cap = s.cap := rfl
@[simp] theorem succeed_color : (succeed s).color = s.color := rfl
@[simp] theorem succeed_result : (succeed s).result = s.result := rfl
@[simp] theorem succeed_pal : (succeed s).pal = s.pal := rfl
@[simp] theorem succeed_chr : (succeed s).chr = s.chr := rfl
@[simp] theorem succeed_pix : (succeed s).pix = s.pix := rfl
@[simp] theorem succeed_chrSize : (succeed s).chrSize = s.chrSize := rfl
@[simp] theorem succeed_pixSize : (succeed s).pixSize = s.pixSize := rfl
@[simp] theorem succeed_draw : (succeed s).draw = s.draw := rfl
@[simp] theorem succeed_pending : (succeed s).pending = s.pending := rfl
@[simp] theorem succeed_reply : (succeed s).reply = s.reply := rfl
@[simp] theorem succeed_mem : (succeed s).mem = s.mem := by funext sp; cases sp <;> rfl
@[simp] theorem succeed_memRead : (succeed s).memRead = s.memRead := by funext sp a; cases sp <;> rfl
@[simp] theorem succeed_size : (succeed s).size = s.size := by funext sp; cases sp <;> rfl

/-! ### setResult -/

@[simp] theorem setResult_code (v : Nat) : (State.setResult v s).code = s.code := rfl
@[simp] theorem setResult_anyErr (v : Nat) : (State.setResult v s).anyErr = s.anyErr := rfl
@[simp] theorem setResult_chrAddr (v : Nat) : (State.setResult v s).chrAddr = s.chrAddr := rfl
@[simp] theorem setResult_pixAddr (v : Nat) : (State.setResult v s).pixAddr = s.pixAddr := rfl
@[simp] theorem setResult_len (v : Nat) : (State.setResult v s).len = s.len := rfl
@[simp] theorem setResult_cap (v : Nat) : (State.setResult v s).cap = s.cap := rfl
@[simp] theorem setResult_color (v : Nat) : (State.setResult v s).color = s.color := rfl
@[simp] theorem setResult_result (v : Nat) : (State.setResult v s).result = BitVec.ofNat 32 v := rfl
@[simp] theorem setResult_pal (v : Nat) : (State.setResult v s).pal = s.pal := rfl
@[simp] theorem setResult_chr (v : Nat) : (State.setResult v s).chr = s.chr := rfl
@[simp] theorem setResult_pix (v : Nat) : (State.setResult v s).pix = s.pix := rfl
@[simp] theorem setResult_chrSize (v : Nat) : (State.setResult v s).chrSize = s.chrSize := rfl
@[simp] theorem setResult_pixSize (v : Nat) : (State.setResult v s).pixSize = s.pixSize := rfl
@[simp] theorem setResult_draw (v : Nat) : (State.setResult v s).draw = s.draw := rfl
@[simp] theorem setResult_pending (v : Nat) : (State.setResult v s).pending = s.pending := rfl
@[simp] theorem setResult_reply (v : Nat) : (State.setResult v s).reply = s.reply := rfl
@[simp] theorem setResult_mem (v : Nat) : (State.setResult v s).mem = s.mem := by funext sp; cases sp <;> rfl
@[simp] theorem setResult_memRead (v : Nat) : (State.setResult v s).memRead = s.memRead := by funext sp a; cases sp <;> rfl
@[simp] theorem setResult_size (v : Nat) : (State.setResult v s).size = s.size := by funext sp; cases sp <;> rfl

/-! ### palWrite -/

@[simp] theorem palWrite_code (i : Nat) (c : Color) : (State.palWrite i c s).code = s.code := rfl
@[simp] theorem palWrite_anyErr (i : Nat) (c : Color) : (State.palWrite i c s).anyErr = s.anyErr := rfl
@[simp] theorem palWrite_chrAddr (i : Nat) (c : Color) : (State.palWrite i c s).chrAddr = s.chrAddr := rfl
@[simp] theorem palWrite_pixAddr (i : Nat) (c : Color) : (State.palWrite i c s).pixAddr = s.pixAddr := rfl
@[simp] theorem palWrite_len (i : Nat) (c : Color) : (State.palWrite i c s).len = s.len := rfl
@[simp] theorem palWrite_cap (i : Nat) (c : Color) : (State.palWrite i c s).cap = s.cap := rfl
@[simp] theorem palWrite_color (i : Nat) (c : Color) : (State.palWrite i c s).color = s.color := rfl
@[simp] theorem palWrite_result (i : Nat) (c : Color) : (State.palWrite i c s).result = s.result := rfl
@[simp] theorem palWrite_pal (i : Nat) (c : Color) : (State.palWrite i c s).pal = s.pal.set (palIndex i).val c := rfl
@[simp] theorem palWrite_chr (i : Nat) (c : Color) : (State.palWrite i c s).chr = s.chr := rfl
@[simp] theorem palWrite_pix (i : Nat) (c : Color) : (State.palWrite i c s).pix = s.pix := rfl
@[simp] theorem palWrite_chrSize (i : Nat) (c : Color) : (State.palWrite i c s).chrSize = s.chrSize := rfl
@[simp] theorem palWrite_pixSize (i : Nat) (c : Color) : (State.palWrite i c s).pixSize = s.pixSize := rfl
@[simp] theorem palWrite_draw (i : Nat) (c : Color) : (State.palWrite i c s).draw = s.draw := rfl
@[simp] theorem palWrite_pending (i : Nat) (c : Color) : (State.palWrite i c s).pending = s.pending := rfl
@[simp] theorem palWrite_reply (i : Nat) (c : Color) : (State.palWrite i c s).reply = s.reply := rfl
@[simp] theorem palWrite_mem (i : Nat) (c : Color) : (State.palWrite i c s).mem = s.mem := by funext sp; cases sp <;> rfl
@[simp] theorem palWrite_memRead (i : Nat) (c : Color) : (State.palWrite i c s).memRead = s.memRead := by funext sp a; cases sp <;> rfl
@[simp] theorem palWrite_size (i : Nat) (c : Color) : (State.palWrite i c s).size = s.size := by funext sp; cases sp <;> rfl

/-! ### answer -/

@[simp] theorem answer_code (r : Reply) : (s.answer r).code = s.code := rfl
@[simp] theorem answer_anyErr (r : Reply) : (s.answer r).anyErr = s.anyErr := rfl
@[simp] theorem answer_chrAddr (r : Reply) : (s.answer r).chrAddr = s.chrAddr := rfl
@[simp] theorem answer_pixAddr (r : Reply) : (s.answer r).pixAddr = s.pixAddr := rfl
@[simp] theorem answer_len (r : Reply) : (s.answer r).len = s.len := rfl
@[simp] theorem answer_cap (r : Reply) : (s.answer r).cap = s.cap := rfl
@[simp] theorem answer_color (r : Reply) : (s.answer r).color = s.color := rfl
@[simp] theorem answer_result (r : Reply) : (s.answer r).result = s.result := rfl
@[simp] theorem answer_pal (r : Reply) : (s.answer r).pal = s.pal := rfl
@[simp] theorem answer_chr (r : Reply) : (s.answer r).chr = s.chr := rfl
@[simp] theorem answer_pix (r : Reply) : (s.answer r).pix = s.pix := rfl
@[simp] theorem answer_chrSize (r : Reply) : (s.answer r).chrSize = s.chrSize := rfl
@[simp] theorem answer_pixSize (r : Reply) : (s.answer r).pixSize = s.pixSize := rfl
@[simp] theorem answer_draw (r : Reply) : (s.answer r).draw = s.draw := rfl
@[simp] theorem answer_pending (r : Reply) : (s.answer r).pending = s.pending := rfl
@[simp] theorem answer_reply (r : Reply) : (s.answer r).reply = r := rfl
@[simp] theorem answer_mem (r : Reply) : (s.answer r).mem = s.mem := by funext sp; cases sp <;> rfl
@[simp] theorem answer_memRead (r : Reply) : (s.answer r).memRead = s.memRead := by funext sp a; cases sp <;> rfl
@[simp] theorem answer_size (r : Reply) : (s.answer r).size = s.size := by funext sp; cases sp <;> rfl

/-! ### awaiting -/

@[simp] theorem awaiting_code (ts : List HostTxn) : (s.awaiting ts).code = s.code := rfl
@[simp] theorem awaiting_anyErr (ts : List HostTxn) : (s.awaiting ts).anyErr = s.anyErr := rfl
@[simp] theorem awaiting_chrAddr (ts : List HostTxn) : (s.awaiting ts).chrAddr = s.chrAddr := rfl
@[simp] theorem awaiting_pixAddr (ts : List HostTxn) : (s.awaiting ts).pixAddr = s.pixAddr := rfl
@[simp] theorem awaiting_len (ts : List HostTxn) : (s.awaiting ts).len = s.len := rfl
@[simp] theorem awaiting_cap (ts : List HostTxn) : (s.awaiting ts).cap = s.cap := rfl
@[simp] theorem awaiting_color (ts : List HostTxn) : (s.awaiting ts).color = s.color := rfl
@[simp] theorem awaiting_result (ts : List HostTxn) : (s.awaiting ts).result = s.result := rfl
@[simp] theorem awaiting_pal (ts : List HostTxn) : (s.awaiting ts).pal = s.pal := rfl
@[simp] theorem awaiting_chr (ts : List HostTxn) : (s.awaiting ts).chr = s.chr := rfl
@[simp] theorem awaiting_pix (ts : List HostTxn) : (s.awaiting ts).pix = s.pix := rfl
@[simp] theorem awaiting_chrSize (ts : List HostTxn) : (s.awaiting ts).chrSize = s.chrSize := rfl
@[simp] theorem awaiting_pixSize (ts : List HostTxn) : (s.awaiting ts).pixSize = s.pixSize := rfl
@[simp] theorem awaiting_draw (ts : List HostTxn) : (s.awaiting ts).draw = s.draw := rfl
@[simp] theorem awaiting_pending (ts : List HostTxn) : (s.awaiting ts).pending = ts := rfl
@[simp] theorem awaiting_reply (ts : List HostTxn) : (s.awaiting ts).reply = s.reply := rfl
@[simp] theorem awaiting_mem (ts : List HostTxn) : (s.awaiting ts).mem = s.mem := by funext sp; cases sp <;> rfl
@[simp] theorem awaiting_memRead (ts : List HostTxn) : (s.awaiting ts).memRead = s.memRead := by funext sp a; cases sp <;> rfl
@[simp] theorem awaiting_size (ts : List HostTxn) : (s.awaiting ts).size = s.size := by funext sp; cases sp <;> rfl

/-! ### memWrite -/

@[simp] theorem memWrite_code (sp : Space) (a : Nat) (v : Byte) : (State.memWrite sp a v s).code = s.code := by cases sp <;> rfl
@[simp] theorem memWrite_anyErr (sp : Space) (a : Nat) (v : Byte) : (State.memWrite sp a v s).anyErr = s.anyErr := by cases sp <;> rfl
@[simp] theorem memWrite_chrAddr (sp : Space) (a : Nat) (v : Byte) : (State.memWrite sp a v s).chrAddr = s.chrAddr := by cases sp <;> rfl
@[simp] theorem memWrite_pixAddr (sp : Space) (a : Nat) (v : Byte) : (State.memWrite sp a v s).pixAddr = s.pixAddr := by cases sp <;> rfl
@[simp] theorem memWrite_len (sp : Space) (a : Nat) (v : Byte) : (State.memWrite sp a v s).len = s.len := by cases sp <;> rfl
@[simp] theorem memWrite_cap (sp : Space) (a : Nat) (v : Byte) : (State.memWrite sp a v s).cap = s.cap := by cases sp <;> rfl
@[simp] theorem memWrite_color (sp : Space) (a : Nat) (v : Byte) : (State.memWrite sp a v s).color = s.color := by cases sp <;> rfl
@[simp] theorem memWrite_result (sp : Space) (a : Nat) (v : Byte) : (State.memWrite sp a v s).result = s.result := by cases sp <;> rfl
@[simp] theorem memWrite_pal (sp : Space) (a : Nat) (v : Byte) : (State.memWrite sp a v s).pal = s.pal := by cases sp <;> rfl
@[simp] theorem memWrite_chrSize (sp : Space) (a : Nat) (v : Byte) : (State.memWrite sp a v s).chrSize = s.chrSize := by cases sp <;> rfl
@[simp] theorem memWrite_pixSize (sp : Space) (a : Nat) (v : Byte) : (State.memWrite sp a v s).pixSize = s.pixSize := by cases sp <;> rfl
@[simp] theorem memWrite_draw (sp : Space) (a : Nat) (v : Byte) : (State.memWrite sp a v s).draw = s.draw := by cases sp <;> rfl
@[simp] theorem memWrite_pending (sp : Space) (a : Nat) (v : Byte) : (State.memWrite sp a v s).pending = s.pending := by cases sp <;> rfl
@[simp] theorem memWrite_reply (sp : Space) (a : Nat) (v : Byte) : (State.memWrite sp a v s).reply = s.reply := by cases sp <;> rfl
@[simp] theorem memWrite_size (sp : Space) (a : Nat) (v : Byte) : (State.memWrite sp a v s).size = s.size := by funext sp'; cases sp <;> cases sp' <;> rfl
@[simp] theorem memWrite_chr_chr (a : Nat) (v : Byte) : (State.memWrite .chr a v s).chr = s.chr.write a v := rfl
@[simp] theorem memWrite_chr_pix (a : Nat) (v : Byte) : (State.memWrite .chr a v s).pix = s.pix := rfl
@[simp] theorem memWrite_pix_chr (a : Nat) (v : Byte) : (State.memWrite .pix a v s).chr = s.chr := rfl
@[simp] theorem memWrite_pix_pix (a : Nat) (v : Byte) : (State.memWrite .pix a v s).pix = s.pix.write a v := rfl

/-! ### writeRegister: a register write changes no result, palette, memory or size -/

@[simp] theorem writeRegister_code (r : RegName) (v : Word) : (State.writeRegister r v s).code = s.code := by
  cases r <;> first | rfl | (simp only [State.writeRegister, State.writeStatus]; split <;> rfl)
@[simp] theorem writeRegister_result (r : RegName) (v : Word) : (State.writeRegister r v s).result = s.result := by
  cases r <;> first | rfl | (simp only [State.writeRegister, State.writeStatus]; split <;> rfl)
@[simp] theorem writeRegister_pal (r : RegName) (v : Word) : (State.writeRegister r v s).pal = s.pal := by
  cases r <;> first | rfl | (simp only [State.writeRegister, State.writeStatus]; split <;> rfl)
@[simp] theorem writeRegister_chr (r : RegName) (v : Word) : (State.writeRegister r v s).chr = s.chr := by
  cases r <;> first | rfl | (simp only [State.writeRegister, State.writeStatus]; split <;> rfl)
@[simp] theorem writeRegister_pix (r : RegName) (v : Word) : (State.writeRegister r v s).pix = s.pix := by
  cases r <;> first | rfl | (simp only [State.writeRegister, State.writeStatus]; split <;> rfl)
@[simp] theorem writeRegister_chrSize (r : RegName) (v : Word) : (State.writeRegister r v s).chrSize = s.chrSize := by
  cases r <;> first | rfl | (simp only [State.writeRegister, State.writeStatus]; split <;> rfl)
@[simp] theorem writeRegister_pixSize (r : RegName) (v : Word) : (State.writeRegister r v s).pixSize = s.pixSize := by
  cases r <;> first | rfl | (simp only [State.writeRegister, State.writeStatus]; split <;> rfl)
@[simp] theorem writeRegister_draw (r : RegName) (v : Word) : (State.writeRegister r v s).draw = s.draw := by
  cases r <;> first | rfl | (simp only [State.writeRegister, State.writeStatus]; split <;> rfl)
@[simp] theorem writeRegister_pending (r : RegName) (v : Word) : (State.writeRegister r v s).pending = s.pending := by
  cases r <;> first | rfl | (simp only [State.writeRegister, State.writeStatus]; split <;> rfl)
@[simp] theorem writeRegister_reply (r : RegName) (v : Word) : (State.writeRegister r v s).reply = s.reply := by
  cases r <;> first | rfl | (simp only [State.writeRegister, State.writeStatus]; split <;> rfl)
@[simp] theorem writeRegister_memRead (r : RegName) (v : Word) : (State.writeRegister r v s).memRead = s.memRead := by
  funext sp a; cases sp <;> simp [State.memRead, State.mem]
@[simp] theorem writeRegister_size (r : RegName) (v : Word) : (State.writeRegister r v s).size = s.size := by
  funext sp; cases sp <;> simp [State.size]

/-! ### applyReset -/

@[simp] theorem applyReset_code : (State.applyReset s).code = 0 := rfl
@[simp] theorem applyReset_anyErr : (State.applyReset s).anyErr = false := rfl
@[simp] theorem applyReset_chrAddr : (State.applyReset s).chrAddr = 0 := rfl
@[simp] theorem applyReset_pixAddr : (State.applyReset s).pixAddr = 0 := rfl
@[simp] theorem applyReset_len : (State.applyReset s).len = 0 := rfl
@[simp] theorem applyReset_cap : (State.applyReset s).cap = 0 := rfl
@[simp] theorem applyReset_color : (State.applyReset s).color = 0 := rfl
@[simp] theorem applyReset_result : (State.applyReset s).result = 0 := rfl
@[simp] theorem applyReset_pal : (State.applyReset s).pal = #v[Config.palDefault, Config.palDefault, Config.palDefault, Config.palDefault] := rfl
@[simp] theorem applyReset_chr : (State.applyReset s).chr = [] := rfl
@[simp] theorem applyReset_pix : (State.applyReset s).pix = [] := rfl
@[simp] theorem applyReset_chrSize : (State.applyReset s).chrSize = s.chrSize := rfl
@[simp] theorem applyReset_pixSize : (State.applyReset s).pixSize = s.pixSize := rfl
@[simp] theorem applyReset_draw : (State.applyReset s).draw = s.draw + 1 := rfl
@[simp] theorem applyReset_pending : (State.applyReset s).pending = s.pending := rfl
@[simp] theorem applyReset_reply : (State.applyReset s).reply = s.reply := rfl
@[simp] theorem applyReset_size : (State.applyReset s).size = s.size := by funext sp; cases sp <;> rfl

end Sys2Proof.Machine
end

