-- ==== Sys2Proof/Laws/Ops.lean ====
section
/-! SUPPORT. What each shared operation does, said once: byte reads after byte writes, counted loops, palette reads
after palette writes, and the register window. -/

namespace Sys2Proof.Machine

/-! ## Bytes -/

/-- MemRead after MemWrite: the byte named has the value written, every other byte of either space is as before
(20_memory.md R52, R53). -/
@[simp] theorem memRead_memWrite (s : State) (sp : Space) (a : Nat) (v : Byte) (sp' : Space) (b : Nat) :
    (State.memWrite sp a v s).memRead sp' b = if sp' = sp ∧ b = a then v else s.memRead sp' b := by
  cases sp <;> cases sp' <;> simp only [State.memRead, State.memWrite, State.mem, lookup_write] <;> grind

/-- A write lists its address, and no other. -/
@[simp] theorem lookup_memWrite (s : State) (sp : Space) (a : Nat) (v : Byte) (sp' : Space) (b : Nat) :
    ((State.memWrite sp a v s).mem sp').lookup b =
      if sp' = sp ∧ b = a then some v else (s.mem sp').lookup b := by
  cases sp <;> cases sp' <;> simp [State.memWrite, State.mem]

/-- What a byte reads as, where the written bytes are known. -/
theorem memRead_of_lookup_eq {s t : State} {sp : Space} {a : Nat} {c : Prop} [Decidable c] {v : Byte}
    (hd : t.draw = s.draw) (h : (t.mem sp).lookup a = if c then some v else (s.mem sp).lookup a) :
    t.memRead sp a = if c then v else s.memRead sp a := by
  unfold State.memRead
  rw [h, hd]
  by_cases hc : c <;> simp only [if_pos, if_neg, hc, not_false_eq_true]

/-- A written byte reads as what it holds. -/
theorem memRead_of_lookup {s : State} {sp : Space} {a : Nat} {v : Byte} (h : (s.mem sp).lookup a = some v) :
    s.memRead sp a = v := by
  simp [State.memRead, h]

/-- What a byte reads as depends on its space and on the draw of the free values alone. -/
theorem memRead_congr {s t : State} {sp : Space} (hm : s.mem sp = t.mem sp) (hd : s.draw = t.draw) :
    s.memRead sp = t.memRead sp := by
  funext a; simp [State.memRead, hm, hd]

/-! ## Counted loops -/

@[simp] theorem forUpTo_zero {α : Type} (body : Nat → α → α) (a : α) : forUpTo 0 body a = a := rfl

theorem forUpTo_succ {α : Type} (n : Nat) (body : Nat → α → α) (a : α) :
    forUpTo (n + 1) body a = body n (forUpTo n body a) := rfl

/-- What every round keeps, the loop keeps. -/
theorem forUpTo_induct {α : Type} {P : α → Prop} {n : Nat} {body : Nat → α → α} {a : α} (h0 : P a)
    (hstep : ∀ k, k < n → ∀ b, P b → P (body k b)) : P (forUpTo n body a) := by
  induction n with
  | zero => exact h0
  | succ n ih => exact hstep n (by omega) _ (ih fun k hk => hstep k (by omega))

/-- A value that no round changes, the loop leaves as it was. -/
theorem forUpTo_keeps {α β : Type} (f : α → β) {n : Nat} {body : Nat → α → α} {a : α}
    (hstep : ∀ k b, f (body k b) = f b) : f (forUpTo n body a) = f a :=
  forUpTo_induct (P := fun b => f b = f a) rfl fun k _ b hb => (hstep k b).trans hb

/-! ## The palette -/

/-- `PAL[j & 3]` after `PAL[i & 3] <- c` (10_state.md R31). -/
@[simp] theorem palRead_palWrite (s : State) (i j : Nat) (c : Color) :
    (State.palWrite i c s).palRead j = if j % 4 = i % 4 then c else s.palRead j := by
  simp only [State.palRead, State.palWrite, palIndex, Vector.getElem_set, eq_comm]

/-- Every index of a palette that holds one colour in its four entries reads that colour. -/
theorem palRead_uniform {s : State} {c : Color} (h : s.pal = #v[c, c, c, c]) (idx : Nat) : s.palRead idx = c := by
  have key : ∀ k (hk : k < 4), (#v[c, c, c, c])[k] = c := by
    intro k hk
    interval_cases k <;> rfl
  simp only [State.palRead, h]
  exact key _ _

theorem palRead_congr {s t : State} (h : s.pal = t.pal) : s.palRead = t.palRead := by
  funext i; simp [State.palRead, h]

/-! ## The register window -/

@[simp] theorem registerAt_registerOffset (r : RegName) : registerAt (registerOffset r) = some r := by
  cases r <;> rfl

/-- An aligned 32-bit access inside the window reaches what the offset names. -/
theorem atRegister_legal {off : Nat} (k : Option RegName → Host.Outcome State Fault Refusal) (hw : off < 64)
    (ha : off % 4 = 0) : atRegister 4 off k = k (registerAt off) := by
  simp [atRegister, ha, Nat.not_le.mpr hw]

/-- If an access to the window completes, it was a legal one. -/
theorem legal_of_atRegister_next {bytes off : Nat} {k : Option RegName → Host.Outcome State Fault Refusal}
    {t : State} (h : atRegister bytes off k = .next t) :
    bytes = 4 ∧ off % 4 = 0 ∧ off < 64 ∧ k (registerAt off) = .next t := by
  unfold atRegister at h
  split at h
  · cases h
  · split at h
    · cases h
    · exact ⟨by omega, by omega, by omega, h⟩

end Sys2Proof.Machine
end

