-- ==== Sys2Proof/Laws/Codec.lean ====
section
/-! SUPPORT. The bit-plane functions bit by bit, and what the row, tile and buffer loops of the codec do to every
byte of the two spaces (40_tile_codec.md R100 to R103, R106 to R111). -/

namespace Sys2Proof.Machine

/-! ## Bit-planes -/

/-- DemuxPixel bit by bit (R100): pixel bit 0 is `p1[7-c]`, bit 1 is `p2[7-c]`, the others are 0. -/
theorem demuxPixel_getLsbD (p1 p2 : Byte) (c k : Nat) :
    (demuxPixel p1 p2 c).getLsbD k =
      ((decide (k = 0) && p1.getLsbD (7 - c)) || (decide (k = 1) && p2.getLsbD (7 - c))) := by
  match k with
  | 0 => simp [demuxPixel]
  | 1 => simp [demuxPixel]
  | k + 2 => simp [demuxPixel, BitVec.getLsbD_one]

/-- A plane byte pair's bits, from the 8 pixels of its row (R101): the first pixel in the high bit. -/
theorem muxRow_getLsbD (q : Nat → Byte) {c : Nat} (hc : c < 8) :
    (muxRow ((List.range 8).map q)).1.getLsbD (7 - c) = (q c).getLsbD 0 ∧
    (muxRow ((List.range 8).map q)).2.getLsbD (7 - c) = (q c).getLsbD 1 := by
  have hr : (List.range 8).map q = [q 0, q 1, q 2, q 3, q 4, q 5, q 6, q 7] := rfl
  rw [hr]
  simp only [muxRow, List.foldl, muxStep]
  interval_cases c <;> simp

/-- Demuxing the planes of a row gives each pixel's bits 1:0 back (R101, R108). -/
theorem demuxPixel_muxRow (q : Nat → Byte) {c : Nat} (hc : c < 8) :
    demuxPixel (muxRow ((List.range 8).map q)).1 (muxRow ((List.range 8).map q)).2 c = q c &&& 3#8 := by
  obtain ⟨h1, h2⟩ := muxRow_getLsbD q hc
  refine BitVec.eq_of_getLsbD_eq fun k hk => ?_
  rw [demuxPixel_getLsbD, h1, h2]
  match k with
  | 0 => simp
  | 1 => simp
  | k + 2 =>
    have : (3#8).getLsbD (k + 2) = false := by
      have : k < 6 := by omega
      interval_cases k <;> rfl
    simp [this]

/-- Muxing the pixels of a plane byte pair gives the pair back (R108). -/
theorem muxRow_demuxPixel (p1 p2 : Byte) :
    muxRow ((List.range 8).map (demuxPixel p1 p2)) = (p1, p2) := by
  have key : ∀ k, k < 8 →
      (muxRow ((List.range 8).map (demuxPixel p1 p2))).1.getLsbD k = p1.getLsbD k ∧
      (muxRow ((List.range 8).map (demuxPixel p1 p2))).2.getLsbD k = p2.getLsbD k := by
    intro k hk
    obtain ⟨h1, h2⟩ := muxRow_getLsbD (demuxPixel p1 p2) (c := 7 - k) (by omega)
    rw [show 7 - (7 - k) = k by omega] at h1 h2
    rw [h1, h2, demuxPixel_getLsbD, demuxPixel_getLsbD, show 7 - (7 - k) = k by omega]
    simp
  exact Prod.ext (BitVec.eq_of_getLsbD_eq fun k hk => (key k hk).1)
    (BitVec.eq_of_getLsbD_eq fun k hk => (key k hk).2)

/-- A byte in [0, 3] is its two low bits' number. -/
theorem toNat_of_two_bits {v : Byte} (h : ∀ k, v.getLsbD (k + 2) = false) :
    v.toNat = (v.getLsbD 0).toNat + 2 * (v.getLsbD 1).toNat := by
  have hv : ∀ b0 b1 : Bool, v.getLsbD 0 = b0 → v.getLsbD 1 = b1 →
      v = BitVec.ofNat 8 (b0.toNat + 2 * b1.toNat) := by
    intro b0 b1 h0 h1
    refine BitVec.eq_of_getLsbD_eq fun k hk => ?_
    match k with
    | 0 => rw [h0]; cases b0 <;> cases b1 <;> rfl
    | 1 => rw [h1]; cases b0 <;> cases b1 <;> rfl
    | k + 2 =>
      have : k < 6 := by omega
      rw [h k]; interval_cases k <;> cases b0 <;> cases b1 <;> rfl
  generalize h0 : v.getLsbD 0 = b0
  generalize h1 : v.getLsbD 1 = b1
  rw [hv b0 b1 h0 h1]
  cases b0 <;> cases b1 <;> rfl

/-- Every decoded pixel is in [0, 3] (R100). -/
theorem demuxPixel_le (p1 p2 : Byte) (c : Nat) : (demuxPixel p1 p2 c).toNat ≤ 3 := by
  have h : demuxPixel p1 p2 c = demuxPixel p1 p2 c &&& 3#8 := by
    refine BitVec.eq_of_getLsbD_eq fun k hk => ?_
    rw [BitVec.getLsbD_and, demuxPixel_getLsbD]
    match k with
    | 0 => simp
    | 1 => simp
    | k + 2 => simp
  rw [h, BitVec.toNat_and]
  exact Nat.and_le_right

/-- A byte in [0, 3] is its own bits 1:0 (R108). -/
theorem and_three_of_le {v : Byte} (h : v.toNat ≤ 3) : v &&& 3#8 = v := by
  apply BitVec.eq_of_toNat_eq
  rw [BitVec.toNat_and]
  exact (Nat.and_two_pow_sub_one_eq_mod v.toNat 2).trans (Nat.mod_eq_of_lt (by omega))

/-! ## What a tile's bytes become -/

/-- The pixel that DecodeTileAt writes at offset k of its tile, from the packed tile at CHR address c (R102). -/
def tilePixel (s : State) (c k : Nat) : Byte :=
  demuxPixel (s.memRead .chr (c + k / 8)) (s.memRead .chr (c + 8 + k / 8)) (k % 8)

/-- The two plane bytes that EncodeTileAt writes for a row, from the pixel tile at PIX address p (R103). -/
def tilePlanes (s : State) (p row : Nat) : Byte × Byte := muxRow (readRow p row s)

/-- The byte that EncodeTileAt writes at offset k of its packed tile: plane 1 in bytes 0 to 7, plane 2 in bytes 8 to
15 (R103, 20_memory.md R55). -/
def tileByte (s : State) (p k : Nat) : Byte :=
  if k < 8 then (tilePlanes s p k).1 else (tilePlanes s p (k - 8)).2

theorem tilePixel_congr {s t : State} (h : s.memRead .chr = t.memRead .chr) : tilePixel s = tilePixel t := by
  funext c k; simp [tilePixel, h]

theorem readRow_congr {s t : State} (h : s.memRead .pix = t.memRead .pix) (p row : Nat) :
    readRow p row s = readRow p row t := by
  simp [readRow, h]

theorem tileByte_congr {s t : State} (h : s.memRead .pix = t.memRead .pix) : tileByte s = tileByte t := by
  funext p k; simp [tileByte, tilePlanes, readRow_congr h]

/-! ## Frames: the codec loops change one space and nothing else -/

/-- A state that only byte writes to the space separate from s has every other field of s. -/
theorem writes_frame {sp : Space} {s : State} {n : Nat} {body : Nat → State → State}
    (hb : ∀ k t, ∃ m, body k t = match sp with | .chr => { t with chr := m } | .pix => { t with pix := m }) :
    ∃ m, forUpTo n body s = match sp with | .chr => { s with chr := m } | .pix => { s with pix := m } := by
  induction n with
  | zero => cases sp; exacts [⟨s.chr, rfl⟩, ⟨s.pix, rfl⟩]
  | succ n ih =>
    obtain ⟨m, hm⟩ := ih
    obtain ⟨m', hm'⟩ := hb n (forUpTo n body s)
    refine ⟨m', ?_⟩
    rw [forUpTo_succ, hm', hm]
    cases sp <;> rfl

theorem memWrite_frame (sp : Space) (a : Nat) (v : Byte) (t : State) :
    ∃ m, State.memWrite sp a v t = match sp with | .chr => { t with chr := m } | .pix => { t with pix := m } := by
  cases sp; exacts [⟨_, rfl⟩, ⟨_, rfl⟩]

theorem decodeRow_frame (c p i : Nat) (s : State) : ∃ m, decodeRow c p i s = { s with pix := m } :=
  writes_frame (sp := .pix) fun _ t => memWrite_frame .pix _ _ t

theorem decodeRows_frame (c p n : Nat) (s : State) :
    ∃ m, forUpTo n (decodeRow c p) s = { s with pix := m } :=
  writes_frame (sp := .pix) fun i t => decodeRow_frame c p i t

/-- DecodeTileAt changes PIX and nothing else. -/
theorem decodeTileAt_frame (c p : Nat) (s : State) : ∃ m, decodeTileAt c p s = { s with pix := m } :=
  decodeRows_frame c p 8 s

/-- DECB's loop changes PIX and nothing else. -/
theorem decodeTiles_frame (n c p : Nat) (s : State) : ∃ m, decodeTiles n c p s = { s with pix := m } :=
  writes_frame (sp := .pix) fun k t => decodeTileAt_frame (c + 16 * k) (p + 64 * k) t

theorem encodeRow_frame (p c row : Nat) (s : State) : ∃ m, encodeRow p c row s = { s with chr := m } :=
  ⟨_, rfl⟩

theorem encodeRows_frame (p c n : Nat) (s : State) :
    ∃ m, forUpTo n (encodeRow p c) s = { s with chr := m } :=
  writes_frame (sp := .chr) fun i t => encodeRow_frame p c i t

/-- EncodeTileAt changes CHR and nothing else. -/
theorem encodeTileAt_frame (p c : Nat) (s : State) : ∃ m, encodeTileAt p c s = { s with chr := m } :=
  encodeRows_frame p c 8 s

/-- ENCB's loop changes CHR and nothing else. -/
theorem encodeTiles_frame (n p c : Nat) (s : State) : ∃ m, encodeTiles n p c s = { s with chr := m } :=
  writes_frame (sp := .chr) fun k t => encodeTileAt_frame (p + 64 * k) (c + 16 * k) t

/-! ## The loops, byte by byte -/

/-- A loop of byte writes to consecutive addresses of one space: which bytes it writes, and with what. -/
theorem lookup_writeLoop (s : State) (sp : Space) (base : Nat) (f : Nat → Byte) (n : Nat) (sp' : Space) (a : Nat) :
    ((forUpTo n (fun k => State.memWrite sp (base + k) (f k)) s).mem sp').lookup a =
      if sp' = sp ∧ base ≤ a ∧ a < base + n then some (f (a - base)) else (s.mem sp').lookup a := by
  induction n with
  | zero => rw [if_neg (by grind)]; rfl
  | succ n ih =>
    rw [forUpTo_succ, lookup_memWrite, ih]
    by_cases h : sp' = sp ∧ a = base + n
    · rw [if_pos h, if_pos (by grind), h.2, Nat.add_sub_cancel_left]
    · rw [if_neg h]
      by_cases h' : sp' = sp ∧ base ≤ a ∧ a < base + n
      · rw [if_pos h', if_pos (by grind)]
      · rw [if_neg h', if_neg (by grind)]

theorem lookup_decodeRow (s : State) (c p i : Nat) (sp : Space) (a : Nat) :
    ((decodeRow c p i s).mem sp).lookup a =
      if sp = .pix ∧ p + i * 8 ≤ a ∧ a < p + i * 8 + 8 then
        some (demuxPixel (s.memRead .chr (c + i)) (s.memRead .chr (c + 8 + i)) (a - (p + i * 8)))
      else (s.mem sp).lookup a :=
  lookup_writeLoop s .pix (p + i * 8)
    (fun k => demuxPixel (s.memRead .chr (c + i)) (s.memRead .chr (c + 8 + i)) k) 8 sp a

/-- Rows 0 to n-1 of DecodeTileAt, byte by byte. -/
theorem lookup_decodeRows (s : State) (c p n : Nat) (sp : Space) (a : Nat) :
    ((forUpTo n (decodeRow c p) s).mem sp).lookup a =
      if sp = .pix ∧ p ≤ a ∧ a < p + n * 8 then some (tilePixel s c (a - p)) else (s.mem sp).lookup a := by
  induction n generalizing sp a with
  | zero => rw [if_neg (by grind)]; rfl
  | succ n ih =>
    obtain ⟨m, hm⟩ := decodeRows_frame c p n s
    have hchr : (forUpTo n (decodeRow c p) s).memRead .chr = s.memRead .chr := by rw [hm]; rfl
    rw [forUpTo_succ, lookup_decodeRow, hchr]
    by_cases h : sp = .pix ∧ p + n * 8 ≤ a ∧ a < p + n * 8 + 8
    · rw [if_pos h, if_pos (by grind)]
      have h1 : (a - p) / 8 = n := by omega
      have h2 : (a - p) % 8 = a - (p + n * 8) := by omega
      rw [tilePixel, h1, h2]
    · rw [if_neg h, ih]
      by_cases h' : sp = .pix ∧ p ≤ a ∧ a < p + n * 8
      · rw [if_pos h', if_pos (by grind)]
      · rw [if_neg h', if_neg (by grind)]

/-- DecodeTileAt, byte by byte (R102): it writes every byte of [p, p+64) of PIX and no other byte of either space. -/
theorem lookup_decodeTileAt (s : State) (c p : Nat) (sp : Space) (a : Nat) :
    ((decodeTileAt c p s).mem sp).lookup a =
      if sp = .pix ∧ p ≤ a ∧ a < p + 64 then some (tilePixel s c (a - p)) else (s.mem sp).lookup a :=
  lookup_decodeRows s c p 8 sp a

theorem memRead_decodeTileAt (s : State) (c p : Nat) (sp : Space) (a : Nat) :
    (decodeTileAt c p s).memRead sp a =
      if sp = .pix ∧ p ≤ a ∧ a < p + 64 then tilePixel s c (a - p) else s.memRead sp a := by
  obtain ⟨m, hm⟩ := decodeTileAt_frame c p s
  exact memRead_of_lookup_eq (by rw [hm]) (lookup_decodeTileAt s c p sp a)

theorem decodeTiles_zero (c p : Nat) (s : State) : decodeTiles 0 c p s = s := rfl

theorem decodeTiles_succ (n c p : Nat) (s : State) :
    decodeTiles (n + 1) c p s = decodeTileAt (c + 16 * n) (p + 64 * n) (decodeTiles n c p s) := by
  simp only [decodeTiles, forUpTo_succ]

/-- DECB's loop over n tiles, byte by byte (R106, 20_memory.md R57). -/
theorem lookup_decodeTiles (s : State) (n c p : Nat) (sp : Space) (a : Nat) :
    ((decodeTiles n c p s).mem sp).lookup a =
      if sp = .pix ∧ p ≤ a ∧ a < p + 64 * n then
        some (tilePixel s (c + 16 * ((a - p) / 64)) ((a - p) % 64))
      else (s.mem sp).lookup a := by
  induction n generalizing sp a with
  | zero => rw [if_neg (by grind)]; rfl
  | succ n ih =>
    obtain ⟨m, hm⟩ := decodeTiles_frame n c p s
    have hchr : (decodeTiles n c p s).memRead .chr = s.memRead .chr := by rw [hm]; rfl
    rw [decodeTiles_succ, lookup_decodeTileAt, tilePixel_congr hchr]
    by_cases h : sp = .pix ∧ p + 64 * n ≤ a ∧ a < p + 64 * n + 64
    · rw [if_pos h, if_pos (by grind)]
      have h1 : (a - p) / 64 = n := by omega
      have h2 : (a - p) % 64 = a - (p + 64 * n) := by omega
      rw [h1, h2]
    · rw [if_neg h, ih]
      by_cases h' : sp = .pix ∧ p ≤ a ∧ a < p + 64 * n
      · rw [if_pos h', if_pos (by grind)]
      · rw [if_neg h', if_neg (by grind)]

theorem memRead_decodeTiles (s : State) (n c p : Nat) (sp : Space) (a : Nat) :
    (decodeTiles n c p s).memRead sp a =
      if sp = .pix ∧ p ≤ a ∧ a < p + 64 * n then
        tilePixel s (c + 16 * ((a - p) / 64)) ((a - p) % 64)
      else s.memRead sp a := by
  obtain ⟨m, hm⟩ := decodeTiles_frame n c p s
  exact memRead_of_lookup_eq (by rw [hm]) (lookup_decodeTiles s n c p sp a)

theorem lookup_encodeRow (s : State) (p c row : Nat) (sp : Space) (a : Nat) :
    ((encodeRow p c row s).mem sp).lookup a =
      if sp = .chr ∧ a = c + row + 8 then some (tilePlanes s p row).2
      else if sp = .chr ∧ a = c + row then some (tilePlanes s p row).1
      else (s.mem sp).lookup a := by
  simp only [encodeRow, lookup_memWrite, tilePlanes]

/-- Rows 0 to n-1 of EncodeTileAt, byte by byte. -/
theorem lookup_encodeRows (s : State) (p c n : Nat) (hn : n ≤ 8) (sp : Space) (a : Nat) :
    ((forUpTo n (encodeRow p c) s).mem sp).lookup a =
      if sp = .chr ∧ c ≤ a ∧ (a - c) % 8 < n ∧ a < c + 16 then some (tileByte s p (a - c))
      else (s.mem sp).lookup a := by
  induction n generalizing sp a with
  | zero => rw [if_neg (by grind)]; rfl
  | succ n ih =>
    obtain ⟨m, hm⟩ := encodeRows_frame p c n s
    have hpix : (forUpTo n (encodeRow p c) s).memRead .pix = s.memRead .pix := by rw [hm]; rfl
    rw [forUpTo_succ, lookup_encodeRow, tilePlanes, readRow_congr hpix]
    by_cases h : sp = .chr ∧ a = c + n + 8
    · have e : a - c = n + 8 := by omega
      rw [if_pos h, if_pos (by grind), tileByte, if_neg (by omega), e, Nat.add_sub_cancel, tilePlanes]
    · rw [if_neg h]
      by_cases h' : sp = .chr ∧ a = c + n
      · have e : a - c = n := by omega
        rw [if_pos h', if_pos (by grind), tileByte, if_pos (by omega), e, tilePlanes]
      · rw [if_neg h', ih (by omega)]
        by_cases h'' : sp = .chr ∧ c ≤ a ∧ (a - c) % 8 < n ∧ a < c + 16
        · rw [if_pos h'', if_pos (by grind)]
        · rw [if_neg h'', if_neg]
          rintro ⟨hs, h1, h2, h3⟩
          have : (a - c) % 8 ≠ n := fun e => by
            have : a - c = n ∨ a - c = n + 8 := by omega
            rcases this with e' | e'
            · exact h' ⟨hs, by omega⟩
            · exact h ⟨hs, by omega⟩
          exact h'' ⟨hs, h1, by omega, h3⟩

/-- EncodeTileAt, byte by byte (R103): it writes every byte of [c, c+16) of CHR and no other byte of either space. -/
theorem lookup_encodeTileAt (s : State) (p c : Nat) (sp : Space) (a : Nat) :
    ((encodeTileAt p c s).mem sp).lookup a =
      if sp = .chr ∧ c ≤ a ∧ a < c + 16 then some (tileByte s p (a - c)) else (s.mem sp).lookup a := by
  rw [encodeTileAt, lookup_encodeRows s p c 8 (by omega)]
  by_cases h : sp = .chr ∧ c ≤ a ∧ a < c + 16
  · rw [if_pos h, if_pos (by grind)]
  · rw [if_neg h, if_neg (by grind)]

theorem memRead_encodeTileAt (s : State) (p c : Nat) (sp : Space) (a : Nat) :
    (encodeTileAt p c s).memRead sp a =
      if sp = .chr ∧ c ≤ a ∧ a < c + 16 then tileByte s p (a - c) else s.memRead sp a := by
  obtain ⟨m, hm⟩ := encodeTileAt_frame p c s
  exact memRead_of_lookup_eq (by rw [hm]) (lookup_encodeTileAt s p c sp a)

theorem encodeTiles_zero (p c : Nat) (s : State) : encodeTiles 0 p c s = s := rfl

theorem encodeTiles_succ (n p c : Nat) (s : State) :
    encodeTiles (n + 1) p c s = encodeTileAt (p + 64 * n) (c + 16 * n) (encodeTiles n p c s) := by
  simp only [encodeTiles, forUpTo_succ]

/-- ENCB's loop over n tiles, byte by byte (R107, 20_memory.md R57). -/
theorem lookup_encodeTiles (s : State) (n p c : Nat) (sp : Space) (a : Nat) :
    ((encodeTiles n p c s).mem sp).lookup a =
      if sp = .chr ∧ c ≤ a ∧ a < c + 16 * n then
        some (tileByte s (p + 64 * ((a - c) / 16)) ((a - c) % 16))
      else (s.mem sp).lookup a := by
  induction n generalizing sp a with
  | zero => rw [if_neg (by grind)]; rfl
  | succ n ih =>
    obtain ⟨m, hm⟩ := encodeTiles_frame n p c s
    have hpix : (encodeTiles n p c s).memRead .pix = s.memRead .pix := by rw [hm]; rfl
    rw [encodeTiles_succ, lookup_encodeTileAt, tileByte_congr hpix]
    by_cases h : sp = .chr ∧ c + 16 * n ≤ a ∧ a < c + 16 * n + 16
    · rw [if_pos h, if_pos (by grind)]
      have h1 : (a - c) / 16 = n := by omega
      have h2 : (a - c) % 16 = a - (c + 16 * n) := by omega
      rw [h1, h2]
    · rw [if_neg h, ih]
      by_cases h' : sp = .chr ∧ c ≤ a ∧ a < c + 16 * n
      · rw [if_pos h', if_pos (by grind)]
      · rw [if_neg h', if_neg (by grind)]

theorem memRead_encodeTiles (s : State) (n p c : Nat) (sp : Space) (a : Nat) :
    (encodeTiles n p c s).memRead sp a =
      if sp = .chr ∧ c ≤ a ∧ a < c + 16 * n then
        tileByte s (p + 64 * ((a - c) / 16)) ((a - c) % 16)
      else s.memRead sp a := by
  obtain ⟨m, hm⟩ := encodeTiles_frame n p c s
  exact memRead_of_lookup_eq (by rw [hm]) (lookup_encodeTiles s n p c sp a)

/-! ## Round trips (R108) -/

/-- The plane bytes of pixels that DemuxPixel gave are the bytes they came from. -/
theorem tileByte_of_pixels {t : State} {p k : Nat} (hk : k < 16) (B : Nat → Byte)
    (h : ∀ r c, r < 8 → c < 8 → t.memRead .pix (p + r * 8 + c) = demuxPixel (B r) (B (8 + r)) c) :
    tileByte t p k = B k := by
  have key : ∀ r, r < 8 → tilePlanes t p r = (B r, B (8 + r)) := by
    intro r hr
    rw [tilePlanes, readRow, ← muxRow_demuxPixel]
    exact congrArg muxRow (List.map_congr_left fun c hc => h r c hr (by simpa using hc))
  unfold tileByte
  split
  · rw [key k ‹_›]
  · rw [key (k - 8) (by omega), show 8 + (k - 8) = k by omega]

/-- The pixels of plane bytes that MuxRow gave are bits 1:0 of the pixels they came from. -/
theorem tilePixel_of_bytes {t : State} {c k : Nat} (hk : k < 64) (s : State) (p : Nat)
    (h : ∀ j, j < 16 → t.memRead .chr (c + j) = tileByte s p j) :
    tilePixel t c k = s.memRead .pix (p + k) &&& 3#8 := by
  rw [tilePixel, h _ (by omega), show c + 8 + k / 8 = c + (8 + k / 8) by omega, h _ (by omega), tileByte,
    if_pos (by omega), tileByte, if_neg (by omega), Nat.add_sub_cancel_left, tilePlanes, readRow,
    demuxPixel_muxRow _ (by omega), show p + k / 8 * 8 + k % 8 = p + k by omega]

/-- Decoding n tiles and encoding the result gives every byte of CHR back (R108, first law). -/
theorem encodeTiles_decodeTiles (s : State) (n c p a : Nat) :
    (encodeTiles n p c (decodeTiles n c p s)).memRead .chr a = s.memRead .chr a := by
  rw [memRead_encodeTiles]
  by_cases h : Space.chr = .chr ∧ c ≤ a ∧ a < c + 16 * n
  · obtain ⟨-, h1, h2⟩ := h
    rw [if_pos ⟨rfl, h1, h2⟩, tileByte_of_pixels (by omega) fun j => s.memRead .chr (c + 16 * ((a - c) / 16) + j)]
    · exact congrArg _ (by omega)
    · intro r x hr hx
      rw [memRead_decodeTiles, if_pos ⟨rfl, by omega, by omega⟩, tilePixel,
        show p + 64 * ((a - c) / 16) + r * 8 + x - p = 64 * ((a - c) / 16) + (r * 8 + x) by omega,
        show (64 * ((a - c) / 16) + (r * 8 + x)) / 64 = (a - c) / 16 by omega,
        show (64 * ((a - c) / 16) + (r * 8 + x)) % 64 = r * 8 + x by omega, show (r * 8 + x) / 8 = r by omega,
        show (r * 8 + x) % 8 = x by omega, Nat.add_assoc _ 8 r]
  · rw [if_neg h, memRead_decodeTiles, if_neg (by simp)]

/-- Encoding n tiles and decoding the result gives every byte of the pixel buffer its own bits 1:0, and no other byte of
PIX changes (R108, second and third law). -/
theorem decodeTiles_encodeTiles (s : State) (n c p a : Nat) :
    (decodeTiles n c p (encodeTiles n p c s)).memRead .pix a =
      if p ≤ a ∧ a < p + 64 * n then s.memRead .pix a &&& 3#8 else s.memRead .pix a := by
  rw [memRead_decodeTiles]
  by_cases h : p ≤ a ∧ a < p + 64 * n
  · obtain ⟨h1, h2⟩ := h
    rw [if_pos ⟨rfl, h1, h2⟩, if_pos ⟨h1, h2⟩, tilePixel_of_bytes (by omega) s (p + 64 * ((a - p) / 64))]
    · rw [show p + 64 * ((a - p) / 64) + (a - p) % 64 = a by omega]
    · intro j hj
      rw [memRead_encodeTiles, if_pos ⟨rfl, by omega, by omega⟩,
        show c + 16 * ((a - p) / 64) + j - c = 16 * ((a - p) / 64) + j by omega,
        show (16 * ((a - p) / 64) + j) / 16 = (a - p) / 64 by omega,
        show (16 * ((a - p) / 64) + j) % 16 = j by omega]
  · rw [if_neg h, if_neg fun h' => h h'.2, memRead_encodeTiles, if_neg (by simp)]

/-- One tile is a buffer of one tile (R106). -/
theorem decodeTiles_one (c p : Nat) (s : State) : decodeTiles 1 c p s = decodeTileAt c p s := by
  rw [decodeTiles_succ, decodeTiles_zero]; simp

theorem encodeTiles_one (p c : Nat) (s : State) : encodeTiles 1 p c s = encodeTileAt p c s := by
  rw [encodeTiles_succ, encodeTiles_zero]; simp

/-- Decoding a tile and encoding the result gives its 16 bytes back (R108, first law). -/
theorem encodeTileAt_decodeTileAt (s : State) (c p a : Nat) :
    (encodeTileAt p c (decodeTileAt c p s)).memRead .chr a = s.memRead .chr a := by
  rw [← decodeTiles_one, ← encodeTiles_one, encodeTiles_decodeTiles]

/-- Encoding a tile and decoding the result gives each of its 64 bytes its own bits 1:0 (R108, second and third law). -/
theorem decodeTileAt_encodeTileAt (s : State) (c p a : Nat) :
    (decodeTileAt c p (encodeTileAt p c s)).memRead .pix a =
      if p ≤ a ∧ a < p + 64 then s.memRead .pix a &&& 3#8 else s.memRead .pix a := by
  rw [← decodeTiles_one, ← encodeTiles_one, decodeTiles_encodeTiles]

/-! ## The loops keep the canonical form -/

/-- Both spaces are in canonical form. -/
def State.memWf (s : State) : Prop :=
  Memory.wf s.chrSize s.chr = true ∧ Memory.wf s.pixSize s.pix = true

theorem memWf_memWrite {s : State} {sp : Space} {a : Nat} (v : Byte) (h : s.memWf) (ha : a < s.size sp) :
    (State.memWrite sp a v s).memWf := by
  cases sp
  · exact ⟨wf_write v h.1 ha, h.2⟩
  · exact ⟨h.1, wf_write v h.2 ha⟩

/-- A loop whose rounds keep the canonical form at unchanged sizes keeps it. -/
theorem memWf_forUpTo {s : State} {n : Nat} {body : Nat → State → State} (h : s.memWf)
    (hb : ∀ k, k < n → ∀ t : State, t.memWf → t.size = s.size → (body k t).memWf ∧ (body k t).size = t.size) :
    (forUpTo n body s).memWf ∧ (forUpTo n body s).size = s.size :=
  forUpTo_induct (P := fun t => t.memWf ∧ t.size = s.size) ⟨h, rfl⟩ fun k hk t ht =>
    let ⟨h1, h2⟩ := hb k hk t ht.1 ht.2
    ⟨h1, h2.trans ht.2⟩

theorem memWf_decodeTileAt {s : State} (c p : Nat) (h : s.memWf) (hp : s.InRange .pix p 64) :
    (decodeTileAt c p s).memWf ∧ (decodeTileAt c p s).size = s.size := by
  refine memWf_forUpTo h fun i hi t ht hsz => memWf_forUpTo ht fun k hk u hu hsz' => ⟨memWf_memWrite _ hu ?_, by simp⟩
  have : u.size .pix = s.size .pix := by rw [hsz', hsz]
  rw [this]; unfold State.InRange at hp; omega

theorem memWf_decodeTiles {s : State} (n c p : Nat) (h : s.memWf) (hp : s.InRange .pix p (64 * n)) :
    (decodeTiles n c p s).memWf ∧ (decodeTiles n c p s).size = s.size := by
  refine memWf_forUpTo h fun k hk t ht hsz => memWf_decodeTileAt _ _ ht ?_
  unfold State.InRange at hp ⊢; rw [hsz]; omega

theorem memWf_encodeTileAt {s : State} (p c : Nat) (h : s.memWf) (hc : s.InRange .chr c 16) :
    (encodeTileAt p c s).memWf ∧ (encodeTileAt p c s).size = s.size := by
  refine memWf_forUpTo h fun i hi t ht hsz => ⟨?_, by simp [encodeRow]⟩
  unfold State.InRange at hc
  refine memWf_memWrite _ (memWf_memWrite _ ht ?_) ?_
  · rw [hsz]; omega
  · rw [memWrite_size, hsz]; omega

theorem memWf_encodeTiles {s : State} (n p c : Nat) (h : s.memWf) (hc : s.InRange .chr c (16 * n)) :
    (encodeTiles n p c s).memWf ∧ (encodeTiles n p c s).size = s.size := by
  refine memWf_forUpTo h fun k hk t ht hsz => memWf_encodeTileAt _ _ ht ?_
  unfold State.InRange at hc ⊢; rw [hsz]; omega

end Sys2Proof.Machine
end

