-- ==== Sys2Proof/Laws/Encoding.lean ====
section
/-! SUPPORT. What the decoder's fields read from a word written by its format, and what fields with the right values
say of the word (30_encoding.md R71 to R74, R78). -/

namespace Sys2Proof

@[simp] theorem fieldOp_formatN (op : Byte) : fieldOp (formatN op) = op.toNat := by
  refine congrArg BitVec.toNat (BitVec.eq_of_getLsbD_eq fun k hk => ?_)
  simp only [formatN, BitVec.getLsbD_extractLsb', BitVec.getLsbD_append]
  interval_cases k <;> simp

@[simp] theorem reservedN_formatN (op : Byte) : reservedN (formatN op) = 0 := by
  show _ = (0#24).toNat
  refine congrArg BitVec.toNat (BitVec.eq_of_getLsbD_eq fun k hk => ?_)
  simp only [formatN, BitVec.getLsbD_extractLsb', BitVec.getLsbD_append]
  interval_cases k <;> simp

@[simp] theorem fieldOp_formatP (v y x : Nat) (op : Byte) : fieldOp (formatP v y x op) = op.toNat := by
  refine congrArg BitVec.toNat (BitVec.eq_of_getLsbD_eq fun k hk => ?_)
  simp only [formatP, BitVec.getLsbD_extractLsb', BitVec.getLsbD_append]
  interval_cases k <;> simp

@[simp] theorem fieldX_formatP (v y x : Nat) (op : Byte) : fieldX (formatP v y x op) = x % 256 := by
  show _ = (BitVec.ofNat 8 x).toNat
  refine congrArg BitVec.toNat (BitVec.eq_of_getLsbD_eq fun k hk => ?_)
  simp only [formatP, BitVec.getLsbD_extractLsb', BitVec.getLsbD_append]
  interval_cases k <;> simp

@[simp] theorem fieldY_formatP (v y x : Nat) (op : Byte) : fieldY (formatP v y x op) = y % 256 := by
  show _ = (BitVec.ofNat 8 y).toNat
  refine congrArg BitVec.toNat (BitVec.eq_of_getLsbD_eq fun k hk => ?_)
  simp only [formatP, BitVec.getLsbD_extractLsb', BitVec.getLsbD_append]
  interval_cases k <;> simp

@[simp] theorem fieldV_formatP (v y x : Nat) (op : Byte) : fieldV (formatP v y x op) = v % 256 := by
  show _ = (BitVec.ofNat 8 v).toNat
  refine congrArg BitVec.toNat (BitVec.eq_of_getLsbD_eq fun k hk => ?_)
  simp only [formatP, BitVec.getLsbD_extractLsb', BitVec.getLsbD_append]
  interval_cases k <;> simp

@[simp] theorem fieldOp_formatC (idx : Nat) (op : Byte) : fieldOp (formatC idx op) = op.toNat := by
  refine congrArg BitVec.toNat (BitVec.eq_of_getLsbD_eq fun k hk => ?_)
  simp only [formatC, BitVec.getLsbD_extractLsb', BitVec.getLsbD_append]
  interval_cases k <;> simp

@[simp] theorem fieldIdx_formatC (idx : Nat) (op : Byte) : fieldIdx (formatC idx op) = idx % 256 := by
  show _ = (BitVec.ofNat 8 idx).toNat
  refine congrArg BitVec.toNat (BitVec.eq_of_getLsbD_eq fun k hk => ?_)
  simp only [formatC, BitVec.getLsbD_extractLsb', BitVec.getLsbD_append]
  interval_cases k <;> simp

@[simp] theorem reservedC_formatC (idx : Nat) (op : Byte) : reservedC (formatC idx op) = 0 := by
  show _ = (0#16).toNat
  refine congrArg BitVec.toNat (BitVec.eq_of_getLsbD_eq fun k hk => ?_)
  simp only [formatC, BitVec.getLsbD_extractLsb', BitVec.getLsbD_append]
  interval_cases k <;> simp

/-! The fields of a word as numbers, and the word as the sum of its fields. -/

theorem fieldOp_eq (w : Word) : fieldOp w = w.toNat % 256 := by
  simp [fieldOp, BitVec.extractLsb'_toNat]

theorem fieldX_eq (w : Word) : fieldX w = w.toNat / 2 ^ 8 % 256 := by
  simp [fieldX, BitVec.extractLsb'_toNat, Nat.shiftRight_eq_div_pow]

theorem fieldY_eq (w : Word) : fieldY w = w.toNat / 2 ^ 16 % 256 := by
  simp [fieldY, BitVec.extractLsb'_toNat, Nat.shiftRight_eq_div_pow]

theorem fieldV_eq (w : Word) : fieldV w = w.toNat / 2 ^ 24 := by
  have := w.isLt
  simp only [fieldV, BitVec.extractLsb'_toNat, Nat.shiftRight_eq_div_pow]
  omega

theorem fieldIdx_eq (w : Word) : fieldIdx w = w.toNat / 2 ^ 8 % 256 := by
  simp [fieldIdx, BitVec.extractLsb'_toNat, Nat.shiftRight_eq_div_pow]

theorem reservedN_eq (w : Word) : reservedN w = w.toNat / 2 ^ 8 := by
  have := w.isLt
  simp only [reservedN, BitVec.extractLsb'_toNat, Nat.shiftRight_eq_div_pow]
  omega

theorem reservedC_eq (w : Word) : reservedC w = w.toNat / 2 ^ 16 := by
  have := w.isLt
  simp only [reservedC, BitVec.extractLsb'_toNat, Nat.shiftRight_eq_div_pow]
  omega

theorem toNat_formatN (op : Byte) : (formatN op).toNat = op.toNat := by
  have hop := op.isLt
  have h1 := fieldOp_eq (formatN op)
  have h2 := reservedN_eq (formatN op)
  rw [fieldOp_formatN] at h1
  rw [reservedN_formatN] at h2
  omega

theorem toNat_formatP (v y x : Nat) (op : Byte) :
    (formatP v y x op).toNat = (v % 256) * 2 ^ 24 + (y % 256) * 2 ^ 16 + (x % 256) * 2 ^ 8 + op.toNat := by
  have hop := op.isLt
  have h1 := fieldOp_eq (formatP v y x op)
  have h2 := fieldX_eq (formatP v y x op)
  have h3 := fieldY_eq (formatP v y x op)
  have h4 := fieldV_eq (formatP v y x op)
  rw [fieldOp_formatP] at h1
  rw [fieldX_formatP] at h2
  rw [fieldY_formatP] at h3
  rw [fieldV_formatP] at h4
  omega

theorem toNat_formatC (idx : Nat) (op : Byte) : (formatC idx op).toNat = (idx % 256) * 2 ^ 8 + op.toNat := by
  have hop := op.isLt
  have h1 := fieldOp_eq (formatC idx op)
  have h2 := fieldIdx_eq (formatC idx op)
  have h3 := reservedC_eq (formatC idx op)
  rw [fieldOp_formatC] at h1
  rw [fieldIdx_formatC] at h2
  rw [reservedC_formatC] at h3
  omega

/-- What a word decodes to, by its OP: a command of format N, SETPX, a command whose reserved field is checked, or a
reserved opcode (30_encoding.md R79). -/
theorem decode_cases (w : Word) :
    (∃ op i, (op, i) ∈ [(1, Instr.dect), (2, .enct), (3, .decb), (4, .encb), (7, .pinit)] ∧ fieldOp w = op ∧
      decode w = whenZero (reservedN w) i) ∨
    (fieldOp w = 5 ∧ decode w = .command (.setpx (fieldX w) (fieldY w) (fieldV w))) ∨
    (fieldOp w = 6 ∧ decode w = whenZero (fieldV w) (.getpx (fieldX w) (fieldY w))) ∨
    (fieldOp w = 8 ∧ decode w = whenZero (reservedC w) (.pset (fieldIdx w))) ∨
    (fieldOp w = 9 ∧ decode w = whenZero (reservedC w) (.pget (fieldIdx w))) ∨
    ((fieldOp w = 0 ∨ 10 ≤ fieldOp w) ∧ decode w = .illegal .reservedOpcode) := by
  unfold decode
  split
  case h_1 h => exact .inl ⟨1, _, by simp, h, rfl⟩
  case h_2 h => exact .inl ⟨2, _, by simp, h, rfl⟩
  case h_3 h => exact .inl ⟨3, _, by simp, h, rfl⟩
  case h_4 h => exact .inl ⟨4, _, by simp, h, rfl⟩
  case h_5 h => exact .inr (.inl ⟨h, rfl⟩)
  case h_6 h => exact .inr (.inr (.inl ⟨h, rfl⟩))
  case h_7 h => exact .inl ⟨7, _, by simp, h, rfl⟩
  case h_8 h => exact .inr (.inr (.inr (.inl ⟨h, rfl⟩)))
  case h_9 h => exact .inr (.inr (.inr (.inr (.inl ⟨h, rfl⟩))))
  case h_10 => exact .inr (.inr (.inr (.inr (.inr ⟨by grind, rfl⟩))))

/-- A word with a checked reserved field decodes to a command only when the field is zero. -/
theorem whenZero_eq_command {rsv : Nat} {i j : Instr} :
    whenZero rsv i = .command j ↔ rsv = 0 ∧ i = j := by
  unfold whenZero; split <;> simp [*]

theorem whenZero_eq_illegal {rsv : Nat} {i : Instr} {why : Illegal} :
    whenZero rsv i = .illegal why ↔ rsv ≠ 0 ∧ why = .reservedField := by
  unfold whenZero; split <;> simp [*, eq_comm]

/-! ## Masks of the opcode map as numbers -/

theorem and_maskN (w : Word) : w &&& 0xFFFFFFFF#32 = w := by
  apply BitVec.eq_of_getLsbD_eq; intro k hk
  interval_cases k <;> simp

theorem toNat_and_maskOp (w : Word) : (w &&& 0x000000FF#32).toNat = w.toNat % 256 := by
  rw [BitVec.toNat_and]
  exact Nat.and_two_pow_sub_one_eq_mod w.toNat 8

/-- The bits outside Y and X of a format P word, and those outside IDX of a format C word. -/
theorem and_maskGetpx (w : Word) : w &&& 0xFF0000FF#32 = w.extractLsb' 24 8 ++ 0#16 ++ w.extractLsb' 0 8 := by
  apply BitVec.eq_of_getLsbD_eq; intro k hk
  simp only [BitVec.getLsbD_and, BitVec.getLsbD_append]
  interval_cases k <;> simp

theorem and_maskC (w : Word) : w &&& 0xFFFF00FF#32 = w.extractLsb' 16 16 ++ 0#8 ++ w.extractLsb' 0 8 := by
  apply BitVec.eq_of_getLsbD_eq; intro k hk
  simp only [BitVec.getLsbD_and, BitVec.getLsbD_append]
  interval_cases k <;> simp

/-- Which words each row of R75 selects, in terms of the decoder's fields. -/
theorem selects_rowN (w : Word) (op : Byte) :
    (OpcodeRow.selects ⟨0#24 ++ op, 0xFFFFFFFF#32⟩ w = true) ↔ fieldOp w = op.toNat ∧ reservedN w = 0 := by
  have hop := op.isLt
  change (OpcodeRow.selects ⟨formatN op, 0xFFFFFFFF#32⟩ w = true) ↔ _
  rw [OpcodeRow.selects, and_maskN, beq_iff_eq, fieldOp_eq, reservedN_eq, ← BitVec.toNat_inj, toNat_formatN]
  omega

theorem selects_rowSetpx (w : Word) :
    (OpcodeRow.selects ⟨0x00000005#32, 0x000000FF#32⟩ w = true) ↔ fieldOp w = 5 := by
  rw [OpcodeRow.selects, beq_iff_eq, ← BitVec.toNat_inj, toNat_and_maskOp, fieldOp_eq]
  rfl

theorem selects_rowGetpx (w : Word) :
    (OpcodeRow.selects ⟨0x00000006#32, 0xFF0000FF#32⟩ w = true) ↔ fieldOp w = 6 ∧ fieldV w = 0 := by
  have h : (w.extractLsb' 24 8 ++ 0#16 ++ w.extractLsb' 0 8 : BitVec 32).toNat =
      (w.extractLsb' 24 8).toNat * 2 ^ 24 + (w.extractLsb' 0 8).toNat := by
    rw [BitVec.toNat_append, BitVec.toNat_append]
    have := (w.extractLsb' 0 8).isLt
    rw [show (0#16).toNat = 0 from rfl, Nat.or_zero, Nat.shiftLeft_eq, Nat.shiftLeft_eq,
      Nat.mul_comm _ (2 ^ 8), ← Nat.two_pow_add_eq_or_of_lt this]
    omega
  rw [OpcodeRow.selects, beq_iff_eq, and_maskGetpx, ← BitVec.toNat_inj, h]
  have := (w.extractLsb' 0 8).isLt
  show _ = 6 ↔ (w.extractLsb' 0 8).toNat = 6 ∧ (w.extractLsb' 24 8).toNat = 0
  omega

theorem selects_rowC (w : Word) (op : Byte) :
    (OpcodeRow.selects ⟨0#24 ++ op, 0xFFFF00FF#32⟩ w = true) ↔ fieldOp w = op.toNat ∧ reservedC w = 0 := by
  have h : (w.extractLsb' 16 16 ++ 0#8 ++ w.extractLsb' 0 8 : BitVec 32).toNat =
      (w.extractLsb' 16 16).toNat * 2 ^ 16 + (w.extractLsb' 0 8).toNat := by
    rw [BitVec.toNat_append, BitVec.toNat_append]
    have := (w.extractLsb' 0 8).isLt
    rw [show (0#8).toNat = 0 from rfl, Nat.or_zero, Nat.shiftLeft_eq, Nat.shiftLeft_eq,
      Nat.mul_comm _ (2 ^ 8), ← Nat.two_pow_add_eq_or_of_lt this]
    omega
  have h2 : (0#24 ++ op : BitVec 32).toNat = op.toNat := toNat_formatN op
  rw [OpcodeRow.selects, beq_iff_eq, and_maskC, ← BitVec.toNat_inj, h]
  have := (w.extractLsb' 0 8).isLt
  have := op.isLt
  show _ = (0#24 ++ op : BitVec 32).toNat ↔ (w.extractLsb' 0 8).toNat = op.toNat ∧ (w.extractLsb' 16 16).toNat = 0
  rw [h2]
  omega

end Sys2Proof
end

