-- ==== Sys2Proof/Laws/Exec.lean ====
section
/-! SUPPORT. What each command with checks can do, said once: the error it raises, or the effect it has and the
checks that held. -/

namespace Sys2Proof.Machine

/-- DemuxPixel as the number of the packed-tile format (40_tile_codec.md R100, 20_memory.md R55). -/
theorem demuxPixel_toNat (p1 p2 : Byte) (c : Nat) : (demuxPixel p1 p2 c).toNat = colourIndex p1 p2 c := by
  rw [toNat_of_two_bits fun k => by rw [demuxPixel_getLsbD]; simp, demuxPixel_getLsbD, demuxPixel_getLsbD]
  simp [colourIndex]

theorem execDect_cases (s : State) :
    (s.capacity < 64 ∧ execDect s = .next (raise .bufferTooSmall s)) ∨
    (64 ≤ s.capacity ∧ ¬ (s.InRange .chr s.chrBase 16 ∧ s.InRange .pix s.pixBase 64) ∧
      execDect s = .next (raise .addressOutOfRange s)) ∨
    (s.DectReady ∧
      execDect s = .next (succeed (State.setResult 64 (decodeTileAt s.chrBase s.pixBase s)))) := by
  unfold execDect
  by_cases h1 : s.capacity < 64
  · exact .inl ⟨h1, by rw [if_pos h1]⟩
  · by_cases h2 : s.InRange .chr s.chrBase 16 ∧ s.InRange .pix s.pixBase 64
    · exact .inr (.inr ⟨⟨Nat.not_lt.mp h1, h2.1, h2.2⟩, by rw [if_neg h1, if_neg (by tauto)]⟩)
    · exact .inr (.inl ⟨Nat.not_lt.mp h1, h2, by rw [if_neg h1, if_pos (by tauto)]⟩)

theorem execEnct_cases (s : State) :
    (s.capacity < 16 ∧ execEnct s = .next (raise .bufferTooSmall s)) ∨
    (16 ≤ s.capacity ∧ ¬ (s.InRange .pix s.pixBase 64 ∧ s.InRange .chr s.chrBase 16) ∧
      execEnct s = .next (raise .addressOutOfRange s)) ∨
    (s.EnctReady ∧
      execEnct s = .next (succeed (State.setResult 16 (encodeTileAt s.pixBase s.chrBase s)))) := by
  unfold execEnct
  by_cases h1 : s.capacity < 16
  · exact .inl ⟨h1, by rw [if_pos h1]⟩
  · by_cases h2 : s.InRange .pix s.pixBase 64 ∧ s.InRange .chr s.chrBase 16
    · exact .inr (.inr ⟨⟨Nat.not_lt.mp h1, h2.1, h2.2⟩, by rw [if_neg h1, if_neg (by tauto)]⟩)
    · exact .inr (.inl ⟨Nat.not_lt.mp h1, h2, by rw [if_neg h1, if_pos (by tauto)]⟩)

theorem execDecb_cases (s : State) :
    (s.srcLen % 16 ≠ 0 ∧ execDecb s = .next (raise .invalidLength s)) ∨
    (s.srcLen % 16 = 0 ∧ s.capacity < s.srcLen * 4 ∧ execDecb s = .next (raise .bufferTooSmall s)) ∨
    (s.srcLen % 16 = 0 ∧ s.srcLen * 4 ≤ s.capacity ∧
      ¬ (s.InRange .chr s.chrBase s.srcLen ∧ s.InRange .pix s.pixBase (s.srcLen * 4)) ∧
      execDecb s = .next (raise .addressOutOfRange s)) ∨
    (s.DecbReady ∧ execDecb s =
      .next (succeed (State.setResult (s.srcLen * 4) (decodeTiles (s.srcLen / 16) s.chrBase s.pixBase s)))) := by
  unfold execDecb
  by_cases h0 : s.srcLen % 16 = 0
  · by_cases h1 : s.capacity < s.srcLen * 4
    · exact .inr (.inl ⟨h0, h1, by rw [if_neg (by simpa using h0), if_pos h1]⟩)
    · by_cases h2 : s.InRange .chr s.chrBase s.srcLen ∧ s.InRange .pix s.pixBase (s.srcLen * 4)
      · exact .inr (.inr (.inr ⟨⟨h0, Nat.not_lt.mp h1, h2.1, h2.2⟩,
          by rw [if_neg (by simpa using h0), if_neg h1, if_neg (by tauto)]⟩))
      · exact .inr (.inr (.inl ⟨h0, Nat.not_lt.mp h1, h2,
          by rw [if_neg (by simpa using h0), if_neg h1, if_pos (by tauto)]⟩))
  · exact .inl ⟨h0, by rw [if_pos h0]⟩

theorem execEncb_cases (s : State) :
    (s.srcLen % 64 ≠ 0 ∧ execEncb s = .next (raise .invalidLength s)) ∨
    (s.srcLen % 64 = 0 ∧ s.capacity < s.srcLen / 4 ∧ execEncb s = .next (raise .bufferTooSmall s)) ∨
    (s.srcLen % 64 = 0 ∧ s.srcLen / 4 ≤ s.capacity ∧
      ¬ (s.InRange .pix s.pixBase s.srcLen ∧ s.InRange .chr s.chrBase (s.srcLen / 4)) ∧
      execEncb s = .next (raise .addressOutOfRange s)) ∨
    (s.EncbReady ∧ execEncb s =
      .next (succeed (State.setResult (s.srcLen / 4) (encodeTiles (s.srcLen / 64) s.pixBase s.chrBase s)))) := by
  unfold execEncb
  by_cases h0 : s.srcLen % 64 = 0
  · by_cases h1 : s.capacity < s.srcLen / 4
    · exact .inr (.inl ⟨h0, h1, by rw [if_neg (by simpa using h0), if_pos h1]⟩)
    · by_cases h2 : s.InRange .pix s.pixBase s.srcLen ∧ s.InRange .chr s.chrBase (s.srcLen / 4)
      · exact .inr (.inr (.inr ⟨⟨h0, Nat.not_lt.mp h1, h2.1, h2.2⟩,
          by rw [if_neg (by simpa using h0), if_neg h1, if_neg (by tauto)]⟩))
      · exact .inr (.inr (.inl ⟨h0, Nat.not_lt.mp h1, h2,
          by rw [if_neg (by simpa using h0), if_neg h1, if_pos (by tauto)]⟩))
  · exact .inl ⟨h0, by rw [if_pos h0]⟩

theorem execSetpx_cases (s : State) (x y v : Nat) :
    (s.capacity ≤ pixOffset x y ∧ execSetpx x y v s = .next (raise .bufferTooSmall s)) ∨
    (pixOffset x y < s.capacity ∧ s.pixSize ≤ s.pixBase + pixOffset x y ∧
      execSetpx x y v s = .next (raise .addressOutOfRange s)) ∨
    (s.PixelReady x y ∧ execSetpx x y v s = .next (succeed (State.setResult 0
      (State.memWrite .pix (s.pixBase + pixOffset x y) (BitVec.ofNat 8 v) s)))) := by
  unfold execSetpx
  by_cases h1 : s.capacity ≤ pixOffset x y
  · exact .inl ⟨h1, by rw [if_pos h1]⟩
  · by_cases h2 : s.InRange .pix (s.pixBase + pixOffset x y) 1
    · exact .inr (.inr ⟨⟨Nat.not_le.mp h1, h2⟩, by rw [if_neg h1, if_neg (not_not.mpr h2)]⟩)
    · exact .inr (.inl ⟨Nat.not_le.mp h1, by simpa [State.InRange, State.size] using h2,
        by rw [if_neg h1, if_pos h2]⟩)

theorem execGetpx_cases (s : State) (x y : Nat) :
    (s.capacity ≤ pixOffset x y ∧ execGetpx x y s = .next (raise .bufferTooSmall s)) ∨
    (pixOffset x y < s.capacity ∧ s.pixSize ≤ s.pixBase + pixOffset x y ∧
      execGetpx x y s = .next (raise .addressOutOfRange s)) ∨
    (s.PixelReady x y ∧ execGetpx x y s = .next (succeed (State.setResult
      (s.memRead .pix (s.pixBase + pixOffset x y)).toNat s))) := by
  unfold execGetpx
  by_cases h1 : s.capacity ≤ pixOffset x y
  · exact .inl ⟨h1, by rw [if_pos h1]⟩
  · by_cases h2 : s.InRange .pix (s.pixBase + pixOffset x y) 1
    · exact .inr (.inr ⟨⟨Nat.not_le.mp h1, h2⟩, by rw [if_neg h1, if_neg (not_not.mpr h2)]⟩)
    · exact .inr (.inl ⟨Nat.not_le.mp h1, by simpa [State.InRange, State.size] using h2,
        by rw [if_neg h1, if_pos h2]⟩)

/-- PINIT's palette loop fills every entry (42_palette.md R140). -/
theorem pinit_pal (s : State) :
    forUpTo 4 (fun i => State.palWrite i Config.palDefault) s =
      { s with pal := #v[Config.palDefault, Config.palDefault, Config.palDefault, Config.palDefault] } := by
  have h : ∀ v : Vector Color 4, (((v.set 0 Config.palDefault).set 1 Config.palDefault).set 2
      Config.palDefault).set 3 Config.palDefault =
      #v[Config.palDefault, Config.palDefault, Config.palDefault, Config.palDefault] := by
    intro v
    ext i hi
    interval_cases i <;> simp
  exact congrArg (fun p => { s with pal := p }) (h s.pal)

end Sys2Proof.Machine
end

