-- ==== Sys2Proof/Laws/PerInstr.lean ====
section
/-! SUPPORT. A statement about every command as syntax, one lemma per constructor of Instr: its encoding selects its
own row of the opcode map (30_encoding.md R75). -/

namespace Sys2Proof.Laws.EncodeSelectsRow

/-- The word of a command selects the command's row of R75, whatever its operands. -/
def Statement (i : Instr) : Prop := (opcodeRow i).selects (encode i) = true

/-- The bits of a format P word outside V, Y and X, and those outside Y and X. -/
theorem formatP_and (v y x : Nat) (op : Byte) : formatP v y x op &&& 0x000000FF#32 = 0#24 ++ op := by
  apply BitVec.eq_of_getLsbD_eq
  intro k hk
  simp only [formatP, BitVec.getLsbD_and, BitVec.getLsbD_append]
  interval_cases k <;> simp

theorem formatP_zero_and (y x : Nat) (op : Byte) : formatP 0 y x op &&& 0xFF0000FF#32 = 0#24 ++ op := by
  apply BitVec.eq_of_getLsbD_eq
  intro k hk
  simp only [formatP, BitVec.getLsbD_and, BitVec.getLsbD_append]
  interval_cases k <;> simp

theorem formatC_and (idx : Nat) (op : Byte) : formatC idx op &&& 0xFFFF00FF#32 = 0#24 ++ op := by
  apply BitVec.eq_of_getLsbD_eq
  intro k hk
  simp only [formatC, BitVec.getLsbD_and, BitVec.getLsbD_append]
  interval_cases k <;> simp

theorem dect : Statement .dect := by unfold Statement; decide

theorem enct : Statement .enct := by unfold Statement; decide

theorem decb : Statement .decb := by unfold Statement; decide

theorem encb : Statement .encb := by unfold Statement; decide

theorem setpx (x y v : Nat) : Statement (.setpx x y v) := by
  simp only [Statement, OpcodeRow.selects, opcodeRow, encode, formatP_and]; decide

theorem getpx (x y : Nat) : Statement (.getpx x y) := by
  simp only [Statement, OpcodeRow.selects, opcodeRow, encode, formatP_zero_and]; decide

theorem pinit : Statement .pinit := by unfold Statement; decide

theorem pset (idx : Nat) : Statement (.pset idx) := by
  simp only [Statement, OpcodeRow.selects, opcodeRow, encode, formatC_and]; decide

theorem pget (idx : Nat) : Statement (.pget idx) := by
  simp only [Statement, OpcodeRow.selects, opcodeRow, encode, formatC_and]; decide

end Sys2Proof.Laws.EncodeSelectsRow
end

