-- ==== Sys2Proof/Laws/Step.lean ====
section
/-! SUPPORT. What a step can do, said once: the inversion of step, of a host transaction and of a command word. -/

namespace Sys2Proof.Machine

/-- A step that completes is the block waiting, or the host's next transaction. -/
theorem step_cases {s u : State} (h : step s = .next u) :
    (s.pending = [] ∧ u = s) ∨
    ∃ t rest, s.pending = t :: rest ∧ transact t (s.awaiting rest) = .next u := by
  unfold step at h
  split at h
  · cases h; exact .inl ⟨‹_›, rfl⟩
  · exact .inr ⟨_, _, ‹_›, h⟩

/-- A step whose next transaction is t is that transaction. -/
theorem step_of_pending {s : State} {t : HostTxn} {rest : List HostTxn} (h : s.pending = t :: rest) :
    step s = transact t (s.awaiting rest) := by
  simp [step, h]

/-- A command word is a command, or raises IllegalCommand. -/
theorem execute_cases (w : Word) (s : State) :
    (∃ i, decode w = .command i ∧ execute w s = exec i s) ∨
    (∃ why, decode w = .illegal why ∧ execute w s = .next (raise .illegalCommand s)) := by
  unfold execute
  cases h : decode w with
  | command i => exact .inl ⟨i, rfl, rfl⟩
  | illegal why => exact .inr ⟨why, rfl, rfl⟩

/-- A host transaction that completes is one of these. -/
theorem transact_cases {t : HostTxn} {s u : State} (h : transact t s = .next u) :
    (∃ w, t = .writeReg 4 0 w ∧ execute w (s.answer .done) = .next u) ∨
    (∃ off w r, t = .writeReg 4 off w ∧ registerAt off = some r ∧ r ≠ .cmd ∧
      u = State.writeRegister r w (s.answer .done)) ∨
    (∃ off w, t = .writeReg 4 off w ∧ registerAt off = none ∧ u = s.answer .done) ∨
    (∃ off, t = .readReg 4 off ∧
      u = s.answer (.word (match registerAt off with | none => 0 | some r => s.readRegister r))) ∨
    (∃ sp a v, t = .writeByte sp a v ∧ a < s.size sp ∧ u = State.memWrite sp a v (s.answer .done)) ∨
    (∃ sp a, t = .readByte sp a ∧ a < s.size sp ∧ u = s.answer (.byte (s.memRead sp a))) ∨
    (t = .reset ∧ u = (State.applyReset s).answer .done) := by
  cases t with
  | writeReg bytes off w =>
    obtain ⟨rfl, -, -, h⟩ := legal_of_atRegister_next h
    cases hr : registerAt off with
    | none => rw [hr] at h; cases h; exact .inr (.inr (.inl ⟨off, w, rfl, hr, rfl⟩))
    | some r =>
      rw [hr] at h
      by_cases hc : r = .cmd
      · subst hc
        have h0 : off = 0 := by
          unfold registerAt at hr
          split at hr <;> first | rfl | cases hr
        subst h0
        exact .inl ⟨w, rfl, h⟩
      · refine .inr (.inl ⟨off, w, r, rfl, hr, hc, ?_⟩)
        cases r <;> first | exact absurd rfl hc | (cases h; rfl)
  | readReg bytes off =>
    obtain ⟨rfl, -, -, h⟩ := legal_of_atRegister_next h
    refine .inr (.inr (.inr (.inl ⟨off, rfl, ?_⟩)))
    cases hr : registerAt off <;> (rw [hr] at h; cases h; rfl)
  | writeByte sp a v =>
    simp only [transact] at h
    split at h
    · cases h; exact .inr (.inr (.inr (.inr (.inl ⟨sp, a, v, rfl, ‹_›, rfl⟩))))
    · cases h
  | readByte sp a =>
    simp only [transact] at h
    split at h
    · cases h; exact .inr (.inr (.inr (.inr (.inr (.inl ⟨sp, a, rfl, ‹_›, rfl⟩)))))
    · cases h
  | reset => cases h; exact .inr (.inr (.inr (.inr (.inr (.inr ⟨rfl, rfl⟩)))))

end Sys2Proof.Machine
end

