-- ==== Sys2Proof/Tests/Slice0.lean ====
section
/-! SUPPORT. The model's own tests: the checks of WellFormed, words written out from 30_encoding.md R75, single steps
with the results of 95_test_vectors.md, and for every statement with hypotheses a concrete state that meets them. -/

namespace Sys2Proof.Tests

open Sys2Proof Sys2Proof.Machine

/-! ## WellFormed: one ill-formed term for each check -/

theorem test_wf_refuses_setpx_x : (Instr.setpx 256 0 0).wf = false := by decide
theorem test_wf_refuses_setpx_y : (Instr.setpx 0 256 0).wf = false := by decide
theorem test_wf_refuses_setpx_v : (Instr.setpx 0 0 256).wf = false := by decide
theorem test_wf_refuses_getpx_x : (Instr.getpx 256 0).wf = false := by decide
theorem test_wf_refuses_getpx_y : (Instr.getpx 0 256).wf = false := by decide
theorem test_wf_refuses_pset_idx : (Instr.pset 256).wf = false := by decide
theorem test_wf_refuses_pget_idx : (Instr.pget 256).wf = false := by decide
theorem test_wf_accepts_field_limits : (Instr.setpx 255 255 255).wf = true := by decide
theorem test_asm_refuses_wr_value : (AsmLine.wr (.name .len) (2 ^ 32)).wf = false := by decide
theorem test_asm_refuses_wrb_value : (AsmLine.wrb .chr 0 256).wf = false := by decide
theorem test_asm_refuses_command_field : assemble [.pseudo (.psetc 256 0)] = none := by decide

/-! ## Decode: words written bit by bit from R75, one for each command -/

theorem test_decode_dect : decode 0b00000000000000000000000000000001#32 = .command .dect := by decide
theorem test_decode_enct : decode 0b00000000000000000000000000000010#32 = .command .enct := by decide
theorem test_decode_decb : decode 0b00000000000000000000000000000011#32 = .command .decb := by decide
theorem test_decode_encb : decode 0b00000000000000000000000000000100#32 = .command .encb := by decide
/-- X-1 of 95_test_vectors.md: 0x09020505 is SETPX 5, 2, 9. -/
theorem test_decode_setpx : decode 0b00001001000000100000010100000101#32 = .command (.setpx 5 2 9) := by decide
/-- X-9: 0x00FFFF06 is GETPX 255, 255. -/
theorem test_decode_getpx : decode 0b00000000111111111111111100000110#32 = .command (.getpx 255 255) := by decide
theorem test_decode_pinit : decode 0b00000000000000000000000000000111#32 = .command .pinit := by decide
/-- P-3: 0x00000408 is PSET 4. -/
theorem test_decode_pset : decode 0b00000000000000000000010000001000#32 = .command (.pset 4) := by decide
/-- P-5: 0x0000FF09 is PGET 0xFF. -/
theorem test_decode_pget : decode 0b00000000000000001111111100001001#32 = .command (.pget 255) := by decide
/-- I-1 to I-3 of 95_test_vectors.md: reserved opcodes. -/
theorem test_decode_reserved_opcode : [0x00000000#32, 0x0000000A#32, 0x000000FF#32].all
    (fun w => decode w == .illegal .reservedOpcode) = true := by decide
/-- I-4 to I-7: nonzero reserved fields. -/
theorem test_decode_reserved_field : [0x00000101#32, 0x01000706#32, 0x00010008#32, 0x00000107#32].all
    (fun w => decode w == .illegal .reservedField) = true := by decide
/-- SETPX 0, 15, 3 is 0x030F0005 (95_test_vectors.md, program 4). -/
theorem test_encode_setpx : encode (.setpx 0 15 3) = 0x030F0005#32 := by decide

/-! ## Small states -/

/-- The next state, where there is one. -/
def nextOf : Host.Outcome State Fault Refusal → Option State
  | .next t => some t
  | .fault _ => none
  | .refused _ => none

/-- What f sees of the next state. -/
def seen {α : Type} (f : State → α) (o : Host.Outcome State Fault Refusal) : Option α := (nextOf o).map f

/-- The written bytes of a space from address 0 on. -/
def bytesFrom (bs : List Nat) : Memory := bs.zipIdx.map fun e => (e.2, BitVec.ofNat 8 e.1)

/-- A block of one packed tile and one pixel tile, after reset, with CAP = 64. -/
def tiny : State := { State.resetWith 16 64 with cap := 64 }

/-- The packed tile of 95_test_vectors.md L1.1. -/
def sourceTile : List Nat :=
  [0x41, 0xC2, 0x44, 0x48, 0x10, 0x20, 0x40, 0x80, 0x01, 0x02, 0x04, 0x08, 0x16, 0x21, 0x42, 0x87]

/-- `tiny` with the tile of L1.1 in CHR. -/
def withTile : State := { tiny with chr := bytesFrom sourceTile }

/-- `tiny` with the pixel bytes of a row 0, the rest of PIX zero. -/
def withRow (row : List Nat) : State := { tiny with pix := bytesFrom (row ++ List.replicate (64 - row.length) 0) }

/-- A state whose next transaction is t. -/
def doing (s : State) (t : HostTxn) : State := s.awaiting [t]

/-- The pixels of row y in PIX. -/
def pixelRow (y : Nat) (s : State) : List Nat := (List.range 8).map fun x => (s.memRead .pix (y * 8 + x)).toNat

/-! ## One step of each command -/

/-- D-9, L1.1: rows 0 and 7, and row 4, of the source's tile. -/
theorem test_dect_source_tile : seen (fun t => (pixelRow 0 t, pixelRow 4 t, pixelRow 7 t, t.result)) (exec .dect withTile) =
    some ([0, 1, 0, 0, 0, 0, 0, 3], [0, 0, 0, 3, 0, 2, 2, 0], [3, 0, 0, 0, 0, 2, 2, 2], 64) := by decide
/-- E8: one byte past the end of CHR. -/
theorem test_dect_past_the_end : seen (fun t => (t.statusWord, t.pix)) (exec .dect { tiny with chrAddr := 1 }) =
    some (0x14, []) := by decide
/-- N-3: the two planes of row 0. -/
theorem test_enct_row : seen (fun t => (t.memRead .chr 0, t.memRead .chr 8, t.memRead .chr 1, t.result))
    (exec .enct (withRow [0, 1, 2, 3, 0, 1, 2, 3])) = some (0x55, 0x33, 0, 16) := by decide
/-- N-4: a pixel byte of 0xFE is encoded by its bits 1:0. -/
theorem test_enct_ignores_high_bits : seen (fun t => (t.memRead .chr 0, t.memRead .chr 8)) (exec .enct (withRow [0xFE])) =
    some (0x00, 0x80) := by decide
/-- E2: LEN = 17 and CAP = 0 raise InvalidLength. -/
theorem test_decb_length_first : seen (fun t => (t.statusWord, t.result)) (exec .decb { tiny with len := 17, cap := 0 }) =
    some (0x11, 0) := by decide
/-- E5: LEN = 0x40000000 needs 2^32 bytes, more than CAP = 0xFFFFFFFF; nothing wraps. -/
theorem test_decb_no_wrap : seen State.code (exec .decb { tiny with len := 0x40000000, cap := 0xFFFFFFFF }) =
    some 2 := by decide
/-- E11: one tile, RESULT = 0x10. -/
theorem test_encb_one_tile : seen (fun t => (t.code, t.result, t.memRead .chr 8))
    (exec .encb { withRow [0xFE] with len := 64, cap := 16 }) = some (0, 0x10, 0x80) := by decide
/-- E14: a packed length is not a pixel length. -/
theorem test_encb_packed_length : seen State.code (exec .encb { tiny with len := 16 }) = some 1 := by decide
/-- X-3: SETPX 8, 0, 7 stores at the byte of (0, 1). -/
theorem test_setpx_does_not_mask_x : seen State.pix (exec (.setpx 8 0 7) tiny) = some [(8, 7)] := by decide
/-- X-7: PIX_SIZE = 64, PIX_ADDR = 60, SETPX 4, 0, 1 is out of range. -/
theorem test_setpx_out_of_range : seen (fun t => (t.code, t.pix)) (exec (.setpx 4 0 1) { tiny with pixAddr := 60 }) =
    some (4, []) := by decide
/-- X-2: PIX[21] = 9 is returned unmasked. -/
theorem test_getpx_unmasked : seen State.result (exec (.getpx 5 2) { tiny with pix := [(21, 9)] }) = some 9 := by decide
/-- X-4: GETPX 0, 8 with CAP = 64 raises BufferTooSmall and leaves RESULT. -/
theorem test_getpx_past_cap : seen (fun t => (t.code, t.result)) (exec (.getpx 0 8) { tiny with result := 9 }) =
    some (2, 9) := by decide
/-- P-6, and ANYERR left as it was (R140). -/
theorem test_pinit : seen (fun t => (t.pal.toList, t.result, t.statusWord))
    (exec .pinit { tiny with pal := #v[1, 2, 3, 4], anyErr := true, code := 5, result := 7 }) =
    some ([0x00FF7F, 0x00FF7F, 0x00FF7F, 0x00FF7F], 0, 0x10) := by decide
/-- R141: PSET 0xFF writes PAL[3] and no other entry. -/
theorem test_pset_wraps : seen (fun t => t.pal.toList) (exec (.pset 0xFF) { tiny with pal := #v[1, 2, 3, 4], color := 9 }) =
    some [1, 2, 3, 9] := by decide
/-- R142, program 2: PGET 6 reads entry 2. -/
theorem test_pget_wraps : seen State.result (exec (.pget 6) { tiny with pal := #v[1, 2, 0x00FF7F, 4] }) =
    some 0x00FF7F := by decide

/-! ## One step of the host port -/

/-- 95_test_vectors.md 2.4: from STATUS = 0x15, a write of 0 leaves 0x15 and a write of 0x10 gives 0x05. -/
theorem test_status_write : [0x00#32, 0x10#32].map (fun v => seen State.statusWord
    (step (doing { tiny with code := 5, anyErr := true } (.writeReg 4 0x04 v)))) = [some 0x15, some 0x05] := by decide
/-- P-2: COLOR keeps bits 23:0. -/
theorem test_color_write : seen (fun t => t.readRegister .color) (step (doing tiny (.writeReg 4 0x18 0xAB123456))) =
    some 0x00123456 := by decide
/-- R79: the word of a command written to CMD runs it (P-1). -/
theorem test_step_runs_command : seen State.result (step (tiny.withFetchWord 32 0x00000309)) = some 0x00FF7F := by decide
/-- R37: STATUS reads 0 after reset. -/
theorem test_reset_status : State.reset.statusWord = 0 := by decide
/-- R180, R182: the reset input clears what was written. -/
theorem test_reset_input : seen (fun t => (t.chr, t.cap, t.code)) (step (doing { withTile with code := 4 } .reset)) =
    some ([], 0, 0) := by decide

/-! ## Witnesses: for each statement with hypotheses, a state and operands that meet them all -/

theorem witness_ResetInputResetsRegistersAndPalette : (doing withTile .reset).pending = [.reset] := rfl

theorem witness_DecodeOfEncode : (Instr.setpx 255 0 255).wf = true ∧ (Instr.getpx 255 255).wf = true ∧
    (Instr.pset 255).wf = true ∧ (Instr.pget 0).wf = true ∧ Instr.dect.wf = true := by decide

theorem witness_EncodedWords : (Instr.setpx 255 255 255).wf = true ∧ (Instr.pget 255).wf = true := by decide

theorem witness_EncodeOfDecode : decode 0xFFFFFF05#32 = .command (.setpx 255 255 255) := by decide

theorem witness_DecodeAgreesWithOpcodeMap : decode 0x00FF0006#32 = .command (.getpx 0 255) ∧
    decode 0x0000000A#32 = .illegal .reservedOpcode ∧ decode 0x01000006#32 = .illegal .reservedField ∧
    (∃ r ∈ opcodeMap, r.selects 0x00000005#32 = true) := by decide

theorem witness_ReservedOpcodeIsIllegal : (0x00000000#32).toNat % 256 = 0 ∧ 0x0A ≤ (0x0000000A#32).toNat % 256 ∧
    0x0A ≤ (0xFFFFFFFF#32).toNat % 256 := by decide

theorem witness_ReservedFieldIsIllegal :
    ((0x80000007#32).toNat % 256 ∈ [0x01, 0x02, 0x03, 0x04, 0x07] ∧ (0x80000007#32).toNat / 2 ^ 8 ≠ 0) ∧
    ((0x01000006#32).toNat % 256 = 0x06 ∧ (0x01000006#32).toNat / 2 ^ 24 ≠ 0) ∧
    ((0x00010008#32).toNat % 256 ∈ [0x08, 0x09] ∧ (0x00010008#32).toNat / 2 ^ 16 ≠ 0) := by decide

theorem witness_StepRunsDecodedCommand :
    (doing tiny (.writeReg 4 0x00 0x00000408)).pending = .writeReg 4 0x00 0x00000408 :: [] ∧
    decode 0x00000408#32 = .command (.pset 4) ∧ decodeTableWord 32 0x00000408 = some (.pset 4) := by decide

theorem witness_BlockWaitsForHost : State.reset.pending = [] := rfl

theorem witness_NarrowOrMisalignedAccessIsRefused :
    (doing tiny (.writeReg 2 0x08 1)).pending = [.writeReg 2 0x08 1] ∧ (2 ≠ 4 ∨ 0x08 % 4 ≠ 0) ∧
    (doing tiny (.readReg 4 0x3E)).pending = [.readReg 4 0x3E] ∧ (4 ≠ 4 ∨ 0x3E % 4 ≠ 0) ∧
    (doing tiny (.readReg 4 0x3C)).pending = [.readReg 4 0x3C] ∧ 0x3C % 4 = 0 ∧ 0x3C < 64 := by decide

theorem witness_ReservedOffsetsReadZeroIgnoreWrites :
    (doing tiny (.readReg 4 0x20)).pending = [.readReg 4 0x20] ∧ 0x20 % 4 = 0 ∧
    (doing tiny (.writeReg 4 0x3C 7)).pending = [.writeReg 4 0x3C 7] ∧ 0x3C % 4 = 0 := by decide

theorem witness_RegisterReads : ∀ off ∈ [0x00, 0x04, 0x08, 0x0C, 0x10, 0x14, 0x18, 0x1C],
    (doing tiny (.readReg 4 off)).pending = [.readReg 4 off] := fun _ _ => rfl

theorem witness_RegisterWrites : ∀ off ∈ [0x08, 0x0C, 0x10, 0x14, 0x18, 0x1C],
    (doing tiny (.writeReg 4 off 0xFFFFFFFF)).pending = [.writeReg 4 off 0xFFFFFFFF] := fun _ _ => rfl

theorem witness_StatusRegister : (doing tiny (.readReg 4 0x04)).pending = [.readReg 4 0x04] ∧
    (doing tiny (.writeReg 4 0x04 0x10)).pending = [.writeReg 4 0x04 0x10] ∧
    (∃ t, execute 0x00000000 tiny = .next t) ∧ (∃ t, execute 0x00000007 tiny = .next t) ∧
    (∃ t, step (doing tiny (.readReg 4 0x04)) = .next t ∧ ∀ w,
      (doing tiny (.readReg 4 0x04)).pending.head? ≠ some (.writeReg 4 0x00 w)) ∧
    (∃ t, step (doing tiny .reset) = .next t ∧ (doing tiny .reset).pending.head? = some .reset) :=
  ⟨rfl, rfl, ⟨_, rfl⟩, ⟨_, rfl⟩, ⟨_, rfl, fun _ => by simp [doing, State.awaiting]⟩, ⟨_, rfl, rfl⟩⟩

theorem witness_HostByteAccess : (doing tiny (.writeByte .chr 15 0xFF)).pending = [.writeByte .chr 15 0xFF] ∧
    15 < tiny.size .chr ∧ (doing tiny (.readByte .pix 63)).pending = [.readByte .pix 63] ∧
    63 < tiny.size .pix := by decide

theorem witness_AccessOutsideSpaceOrWindowStops : (doing tiny (.readByte .chr 16)).pending = [.readByte .chr 16] ∧
    tiny.size .chr ≤ 16 ∧ (doing tiny (.writeByte .pix 64 0)).pending = [.writeByte .pix 64 0] ∧
    tiny.size .pix ≤ 64 ∧ (doing tiny (.readReg 4 64)).pending = [.readReg 4 64] ∧
    (doing tiny (.writeReg 4 64 0)).pending = [.writeReg 4 64 0] ∧ 64 % 4 = 0 := by decide

/-- A host program of one transaction of each kind. -/
def mixed : List HostTxn :=
  [.writeByte .chr 15 0x80, .writeReg 4 0x14 64, .writeReg 4 0x00 0x00000001, .readByte .pix 63, .readReg 4 0x3C, .reset]

theorem witness_LegalRunCompletes : ∀ t ∈ (tiny.awaiting mixed).pending, t.Legal (tiny.awaiting mixed) := by
  show ∀ t ∈ mixed, t.Legal (tiny.awaiting mixed)
  simp [mixed, HostTxn.Legal, tiny, State.resetWith, State.size, State.awaiting]

theorem witness_UnwrittenByteKeepsItsValue : ∃ t, step (doing tiny (.writeByte .chr 0 1)) = .next t ∧
    (doing tiny (.writeByte .chr 0 1)).pending.head? ≠ some .reset ∧ (t.mem .pix).lookup 63 = none :=
  ⟨_, rfl, by decide, rfl⟩

theorem witness_DectDecodesTile : tiny.DectReady := ⟨by decide, by decide, by decide⟩

theorem witness_EnctEncodesTile : State.EnctReady { tiny with cap := 16 } := ⟨by decide, by decide, by decide⟩

theorem witness_DecbDecodesBuffer : State.DecbReady { tiny with len := 16 } ∧
    State.DecbReady { tiny with cap := 0, chrAddr := 16, pixAddr := 64 } :=
  ⟨⟨by decide, by decide, by decide, by decide⟩, ⟨by decide, by decide, by decide, by decide⟩⟩

theorem witness_EncbEncodesBuffer : State.EncbReady { tiny with len := 64, cap := 16 } ∧
    State.EncbReady { tiny with cap := 0, chrAddr := 16, pixAddr := 64 } :=
  ⟨⟨by decide, by decide, by decide, by decide⟩, ⟨by decide, by decide, by decide, by decide⟩⟩

theorem witness_LengthLaws : (∃ t, exec .decb { tiny with len := 16 } = .next t ∧ t.code = 0) ∧
    (∃ t, exec .encb { tiny with len := 64, cap := 16 } = .next t ∧ t.code = 0) ∧
    inSpan tiny.pixBase (16 * 4) 63 ∧ ¬ inSpan tiny.pixBase (16 * 4) 64 ∧
    inSpan tiny.chrBase (64 / 4) 15 ∧ ¬ inSpan tiny.chrBase (64 / 4) 16 :=
  ⟨⟨_, rfl, by decide⟩, ⟨_, rfl, by decide⟩, by decide, by decide, by decide, by decide⟩

theorem witness_OneTileBufferIsTile : State.len { tiny with len := 16 } = 16 ∧
    State.len { tiny with len := 64 } = 64 := ⟨rfl, rfl⟩

theorem witness_TileRoundTrip : (withRow [3, 2, 1]).DectReady ∧
    (∀ a, inSpan (withRow [3, 2, 1]).pixBase 64 a → ((withRow [3, 2, 1]).memRead .pix a).toNat ≤ 3) := by
  have h : ∀ a < 64, ((withRow [3, 2, 1]).memRead .pix a).toNat ≤ 3 := by decide
  exact ⟨⟨by decide, by decide, by decide⟩, fun a ha => h a ((show a < 0 + 64 from ha.2).trans_eq rfl)⟩

/-- The conditions on the number of tiles in BufferRoundTrip. -/
def TilesFit (s : State) (n : Nat) : Prop :=
  64 * n ≤ s.cap.toNat ∧ s.chrAddr.toNat + 16 * n ≤ s.chrSize ∧ s.pixAddr.toNat + 64 * n ≤ s.pixSize

theorem witness_BufferRoundTrip : TilesFit tiny 1 ∧ TilesFit { tiny with cap := 0, chrAddr := 16, pixAddr := 64 } 0 ∧
    (∀ a, inSpan (withRow [3, 2, 1]).pixBase (64 * 1) a → ((withRow [3, 2, 1]).memRead .pix a).toNat ≤ 3) :=
  ⟨⟨by decide, by decide, by decide⟩, ⟨by decide, by decide, by decide⟩, witness_TileRoundTrip.2⟩

/-- A tile that agrees with L1.1 on the two bits of pixel (1, 0) and on no other bit of row 0's plane 2. -/
def otherTile : State := { tiny with chr := [(0, 0x40), (8, 0xBE)] }

theorem witness_LanesAreIndependent : withTile.DectReady ∧ otherTile.DectReady ∧
    (∃ t t', exec .dect withTile = .next t ∧ exec .dect otherTile = .next t') ∧
    (withTile.memRead .chr 0).getLsbD (7 - 1) = (otherTile.memRead .chr 0).getLsbD (7 - 1) ∧
    (withTile.memRead .chr 8).getLsbD (7 - 1) = (otherTile.memRead .chr 8).getLsbD (7 - 1) ∧
    (withRow [0xFE]).EnctReady ∧ (withRow [2]).EnctReady ∧
    (∃ t t', exec .enct (withRow [0xFE]) = .next t ∧ exec .enct (withRow [2]) = .next t') ∧
    (withRow [0xFE]).memRead .pix 0 &&& 3#8 = (withRow [2]).memRead .pix 0 &&& 3#8 :=
  ⟨⟨by decide, by decide, by decide⟩, ⟨by decide, by decide, by decide⟩, ⟨_, _, rfl, rfl⟩, by decide, by decide,
    ⟨by decide, by decide, by decide⟩, ⟨by decide, by decide, by decide⟩, ⟨_, _, rfl, rfl⟩, by decide⟩

theorem witness_LongSpriteIsOneImage : State.DecbReady { State.resetWith 32 128 with cap := 128, len := 32 } :=
  ⟨by decide, by decide, by decide, by decide⟩

theorem witness_SetpxStoresPixel : tiny.PixelReady 7 7 ∧ State.PixelReady { tiny with pixAddr := 63 } 0 0 :=
  ⟨⟨by decide, by decide⟩, ⟨by decide, by decide⟩⟩

theorem witness_GetpxReturnsPixel : tiny.PixelReady 63 0 := ⟨by decide, by decide⟩

theorem witness_SetThenGetReturnsValue : ∃ t, exec (.setpx 7 7 255) tiny = .next t ∧ t.code = 0 := ⟨_, rfl, by decide⟩

theorem witness_PaletteWrapLaw : 0 < 256 ∧ 252 < 256 ∧ 0 % 4 = 252 % 4 ∧
    ∀ t ∈ [HostTxn.writeReg 4 0x00 0x00000108, .readReg 4 0x04], t.Legal tiny ∧ ¬ t.MayWriteEntry 252 := by
  refine ⟨by decide, by decide, by decide, ?_⟩
  have h : decode 0x00000108#32 = .command (.pset 1) := by decide
  simp [HostTxn.Legal, HostTxn.MayWriteEntry, h]

theorem witness_PaletteWritersAreNamed : ∃ t, step (doing { tiny with color := 5 } (.writeReg 4 0x00 0x0000FF08)) = .next t ∧
    t.palRead 3 ≠ State.palRead { tiny with color := 5 } 3 := ⟨_, rfl, by decide⟩

theorem witness_PaletteAndCodecAreSeparate : (∀ k, Instr.dect ≠ .pset k) ∧ (∀ k, Instr.dect ≠ .pget k) ∧
    Instr.dect ≠ .pinit ∧ (Instr.pset 255 = .pinit ∨ ∃ idx, Instr.pset 255 = .pset idx ∨ Instr.pset 255 = .pget idx) :=
  ⟨by simp, by simp, by simp, .inr ⟨255, .inl rfl⟩⟩

theorem witness_ErrorPriority : (∃ t, execute 0x00000000 tiny = .next t ∧ ∀ i, decode 0x00000000#32 ≠ .command i) ∧
    (∃ t, exec .dect tiny = .next t) ∧ (∃ t, exec .enct tiny = .next t) ∧
    (∃ t, exec .decb { tiny with len := 17, cap := 0 } = .next t) ∧ (∃ t, exec .encb { tiny with len := 64 } = .next t) ∧
    (∃ t, exec (.setpx 8 7 0) tiny = .next t) ∧ (∃ t, exec (.getpx 7 7) tiny = .next t) ∧
    (∃ t, exec (.pget 255) tiny = .next t) := by
  have h : decode 0x00000000#32 = .illegal .reservedOpcode := by decide
  exact ⟨⟨_, rfl, by simp [h]⟩, ⟨_, rfl⟩, ⟨_, rfl⟩, ⟨_, rfl⟩, ⟨_, rfl⟩, ⟨_, rfl⟩, ⟨_, rfl⟩, ⟨_, rfl⟩⟩

theorem witness_ErrorChangesOnlyStatus : ∃ t, execute 0x00000003 { tiny with len := 17 } = .next t ∧ t.code ≠ 0 :=
  ⟨_, rfl, by decide⟩

theorem witness_SuccessLeavesAnyErr : ∃ t, execute 0x00000007 { tiny with anyErr := true } = .next t ∧ t.code = 0 :=
  ⟨_, rfl, by decide⟩

theorem witness_AllocationFailureIsNeverRaised : ∃ t, execute 0x00000003 { tiny with len := 16, cap := 63 } = .next t :=
  ⟨_, rfl⟩

/-- A state with ANYERR = 1 whose host writes STATUS with bit 4 = 0 and reads CODE. -/
def sticky : State := { tiny with anyErr := true, pending := [.writeReg 4 0x04 0xFFFFFFEF, .readReg 4 0x04] }

theorem witness_AnyErrIsSticky : sticky.anyErr = true ∧ (∀ t ∈ sticky.pending, ¬ t.MayClearAnyErr) ∧
    ∃ u, Host.Core.run Sys2Proof.core 2 sticky = .next u := by
  refine ⟨rfl, ?_, _, rfl⟩
  simp only [sticky, List.forall_mem_cons, HostTxn.MayClearAnyErr]
  exact ⟨by decide, by simp⟩

theorem witness_ResultOfEachCommand : (∃ t, exec .dect withTile = .next t ∧ t.code = 0) ∧
    (∃ t, exec .enct (withRow [1]) = .next t ∧ t.code = 0) ∧ (∃ t, exec .decb { tiny with len := 16 } = .next t ∧ t.code = 0) ∧
    (∃ t, exec .encb { withRow [1] with len := 64 } = .next t ∧ t.code = 0) ∧
    (∃ t, exec (.setpx 7 7 1) tiny = .next t ∧ t.code = 0) ∧ (∃ t, exec (.getpx 7 7) tiny = .next t ∧ t.code = 0) ∧
    (∃ t, execute 0x00000003 { tiny with len := 16, cap := 63 } = .next t ∧ t.code ≠ 0) ∧
    (doing tiny (.writeReg 4 0x1C 1)).pending = [.writeReg 4 0x1C 1] ∧
    (doing tiny (.readReg 4 0x1C)).pending = [.readReg 4 0x1C] :=
  ⟨⟨_, rfl, by decide⟩, ⟨_, rfl, by decide⟩, ⟨_, rfl, by decide⟩, ⟨_, rfl, by decide⟩, ⟨_, rfl, by decide⟩,
    ⟨_, rfl, by decide⟩, ⟨_, rfl, by decide⟩, rfl, rfl⟩

theorem witness_OperandRegistersPersist : ∃ t, step (doing tiny (.writeReg 4 0x14 1)) = .next t ∧
    (doing tiny (.writeReg 4 0x14 1)).pending.head? ≠ some .reset ∧ t.cap ≠ tiny.cap := ⟨_, rfl, by decide, by decide⟩

theorem witness_SpaceWritersAreNamed : (∃ t, exec (.setpx 0 0 1) tiny = .next t) ∧
    Instr.setpx 0 0 1 ≠ .enct ∧ Instr.setpx 0 0 1 ≠ .encb ∧
    (∃ t, exec .enct (withRow [1]) = .next t) ∧ ∀ x y v, Instr.enct ≠ .setpx x y v :=
  ⟨⟨_, rfl⟩, by simp, by simp, ⟨_, rfl⟩, by simp⟩

theorem witness_UnreadRegistersDoNotMatter : (∃ t, exec .dect tiny = .next t) ∧ Instr.dect ≠ .decb ∧ Instr.dect ≠ .encb ∧
    ∀ idx, Instr.decb ≠ .pset idx := ⟨⟨_, rfl⟩, by simp, by simp, by simp⟩

theorem witness_AssemblerRefusesValuesThatDoNotFit : 2 ^ 32 ≤ 2 ^ 32 ∧ 256 ≤ 256 ∧
    (256 ≤ 255 ∨ 256 ≤ 0 ∨ 256 ≤ 256) ∧ (2 ^ 32 ≤ 0 ∨ 2 ^ 32 ≤ 2 ^ 32) ∧ 2 ^ 32 - 1 < 2 ^ 32 ∧ 255 < 256 ∧
    (RegRef.name .result, 0x1C) ∈ [(RegRef.name .cmd, 0x00), (RegRef.name .result, 0x1C)] ∧
    (∀ x y v, Instr.setpx 255 0 255 = .setpx x y v → x < 256 ∧ y < 256 ∧ v < 256) ∧
    (∀ x y, Instr.setpx 255 0 255 ≠ .getpx x y) ∧
    (∀ idx, Instr.pget 255 = .pset idx ∨ Instr.pget 255 = .pget idx → idx < 256) := by
  refine ⟨by decide, by decide, by decide, by decide, by decide, by decide, by decide, ?_, by simp, ?_⟩
  · rintro x y v h; cases h; decide
  · rintro idx (h | h) <;> cases h; decide

theorem witness_PseudoInstructionsExpand : 0x200 < 2 ^ 32 ∧ 2 ^ 32 - 1 < 2 ^ 32 ∧ 255 < 256 := by decide

theorem witness_StepKeepsInvariant : withTile.Inv ∧ ∃ t, step (doing withTile (.writeByte .chr 15 0)) = .next t :=
  ⟨⟨by decide, by decide, by decide, by decide, by decide, by decide, by decide⟩, ⟨_, rfl⟩⟩

end Sys2Proof.Tests
end

section
/-! PROOF of O51. Right after reset both spaces are empty and CODE is 0, so the invariant asks only for the bounds
of the two sizes, and `Config` clamps whatever numbers the platform offers to those bounds (00_scope.md R8). -/

namespace Sys2Proof.Machine

/-- CHR_SIZE of the machine is within its bounds, whatever the platform offers (R8, R50). -/
theorem chrSize_bounds : 16 ≤ Config.chrSize ∧ Config.chrSize ≤ 2 ^ 32 := by
  unfold Config.chrSize
  exact ⟨le_max_left _ _, max_le (by decide) (min_le_right _ _)⟩

/-- PIX_SIZE of the machine is within its bounds, whatever the platform offers (R8, R51). -/
theorem pixSize_bounds : 64 ≤ Config.pixSize ∧ Config.pixSize ≤ 2 ^ 32 := by
  unfold Config.pixSize
  exact ⟨le_max_left _ _, max_le (by decide) (min_le_right _ _)⟩

/-- The state after reset of a block whose sizes are within their bounds meets the invariant: no byte is listed in
either space and CODE is 0 (R37). -/
theorem resetWith_inv {chrSize pixSize : Nat} (hchr : 16 ≤ chrSize ∧ chrSize ≤ 2 ^ 32)
    (hpix : 64 ≤ pixSize ∧ pixSize ≤ 2 ^ 32) : (State.resetWith chrSize pixSize).Inv where
  chrSize_lower := hchr.left
  chrSize_upper := hchr.right
  pixSize_lower := hpix.left
  pixSize_upper := hpix.right
  chr_wf := wf_nil chrSize
  pix_wf := wf_nil pixSize
  code_legal := List.mem_cons_self

/-- Settles O51: the machine's reset is that of a block with the two clamped sizes. -/
theorem resetMeetsInvariant : Obligations.ResetMeetsInvariant :=
  resetWith_inv chrSize_bounds pixSize_bounds

end Sys2Proof.Machine
end

section
/-! SUPPORT. What every command does, said once. A command makes its checks in the order of 60_exceptions.md R157; the
first that fails is raised and nothing else changes (R158), and where none fails the command has its effect, sets
RESULT and succeeds (R159). -/

namespace Sys2Proof.Machine

/-- The first of the three checks that fails, in the order of R157. -/
def firstError (lengthOk capOk spansOk : Prop) [Decidable lengthOk] [Decidable capOk] [Decidable spansOk] :
    Option Completion :=
  if ¬ lengthOk then some .invalidLength
  else if ¬ capOk then some .bufferTooSmall
  else if ¬ spansOk then some .addressOutOfRange
  else none

/-- The error a command raises, if any (R153, R154, R156). -/
def commandError (i : Instr) (s : State) : Option Completion :=
  match i with
  | .dect => firstError True (64 ≤ s.capacity) (s.InRange .chr s.chrBase 16 ∧ s.InRange .pix s.pixBase 64)
  | .enct => firstError True (16 ≤ s.capacity) (s.InRange .pix s.pixBase 64 ∧ s.InRange .chr s.chrBase 16)
  | .decb => firstError (s.srcLen % 16 = 0) (s.srcLen * 4 ≤ s.capacity)
      (s.InRange .chr s.chrBase s.srcLen ∧ s.InRange .pix s.pixBase (s.srcLen * 4))
  | .encb => firstError (s.srcLen % 64 = 0) (s.srcLen / 4 ≤ s.capacity)
      (s.InRange .pix s.pixBase s.srcLen ∧ s.InRange .chr s.chrBase (s.srcLen / 4))
  | .setpx x y _ => firstError True (pixOffset x y < s.capacity) (s.InRange .pix (s.pixBase + pixOffset x y) 1)
  | .getpx x y => firstError True (pixOffset x y < s.capacity) (s.InRange .pix (s.pixBase + pixOffset x y) 1)
  | .pinit => none
  | .pset _ => none
  | .pget _ => none

/-- What a command does to the byte spaces and the palette when no check fails. -/
def commandEffect (i : Instr) (s : State) : State :=
  match i with
  | .dect => decodeTileAt s.chrBase s.pixBase s
  | .enct => encodeTileAt s.pixBase s.chrBase s
  | .decb => decodeTiles (s.srcLen / 16) s.chrBase s.pixBase s
  | .encb => encodeTiles (s.srcLen / 64) s.pixBase s.chrBase s
  | .setpx x y v => State.memWrite .pix (s.pixBase + pixOffset x y) (BitVec.ofNat 8 v) s
  | .getpx _ _ => s
  | .pinit => forUpTo 4 (fun k => State.palWrite k Config.palDefault) s
  | .pset idx => State.palWrite idx s.color s
  | .pget _ => s

/-- What a command puts in RESULT when no check fails (10_state.md R28). -/
def commandResult (i : Instr) (s : State) : Nat :=
  match i with
  | .dect => 64
  | .enct => 16
  | .decb => s.srcLen * 4
  | .encb => s.srcLen / 4
  | .setpx _ _ _ => 0
  | .getpx x y => (s.memRead .pix (s.pixBase + pixOffset x y)).toNat
  | .pinit => 0
  | .pset _ => 0
  | .pget idx => (s.palRead idx).toNat

/-- The state in which a command succeeds. -/
def commandDone (i : Instr) (s : State) : State :=
  succeed (State.setResult (commandResult i s) (commandEffect i s))

/-- The state a command ends in: the error raised from s, or the success. -/
def ending (s done : State) : Option Completion → State
  | some e => raise e s
  | none => done

/-! ## The checks -/

theorem firstError_eq_none {l c r : Prop} [Decidable l] [Decidable c] [Decidable r] :
    firstError l c r = none ↔ l ∧ c ∧ r := by
  unfold firstError
  split_ifs <;> simp [*]

theorem firstError_ne {l c r : Prop} [Decidable l] [Decidable c] [Decidable r] {e : Completion}
    (h : firstError l c r = some e) : e ≠ .ok ∧ e ≠ .allocationFailure := by
  unfold firstError at h
  split_ifs at h <;> cases h <;> simp

theorem ending_firstError (s done : State) (l c r : Prop) [Decidable l] [Decidable c] [Decidable r] :
    ending s done (firstError l c r) =
      if ¬ l then raise .invalidLength s else if ¬ c then raise .bufferTooSmall s
      else if ¬ r then raise .addressOutOfRange s else done := by
  unfold firstError
  split_ifs <;> rfl

/-- No command raises success, nor the code reserved for the host (R155). -/
theorem commandError_ne {i : Instr} {s : State} {e : Completion} (h : commandError i s = some e) :
    e ≠ .ok ∧ e ≠ .allocationFailure := by
  cases i with
  | pinit | pset | pget => cases h
  | dect | enct | decb | encb | setpx | getpx => exact firstError_ne h

/-- A completion code other than the host's is a legal CODE (10_state.md R22). -/
theorem toCode_legal {e : Completion} (h : e ≠ .allocationFailure) : e.toCode ∈ [0#4, 1#4, 2#4, 4#4, 5#4] := by
  cases e with
  | allocationFailure => exact absurd rfl h
  | ok | invalidLength | bufferTooSmall | addressOutOfRange | illegalCommand => decide

/-- CODE = 0 is success alone (R151). -/
theorem toCode_ne_zero {e : Completion} (h : e ≠ .ok) : e.toCode ≠ 0 := by
  cases e with
  | ok => exact absurd rfl h
  | allocationFailure | invalidLength | bufferTooSmall | addressOutOfRange | illegalCommand => decide

/-- The same as the test by which ANYERR is set. -/
theorem toCode_bne_zero {e : Completion} (h : e ≠ .ok) : (e.toCode != 0) = true :=
  bne_iff_ne.mpr (toCode_ne_zero h)

/-! ## The outcome -/

/-- Every command completes, with its first error or with its success: the equation that ties the definitions above
to `exec`. -/
theorem exec_eq_ending (i : Instr) (s : State) :
    exec i s = .next (ending s (commandDone i s) (commandError i s)) := by
  cases i with
  | pinit | pset | pget => rfl
  | dect | enct | decb | encb | setpx | getpx =>
    simp only [exec, execDect, execEnct, execDecb, execEncb, execSetpx, execGetpx, commandDone, commandError,
      commandEffect, commandResult, ending_firstError, ← not_lt, not_true, not_not, not_and_or, if_false, ne_eq]

/-- What a command can do: raise its error, or succeed with every check passed. -/
theorem exec_outcome {i : Instr} {s t : State} (h : exec i s = .next t) :
    (∃ e, e ≠ .ok ∧ e ≠ .allocationFailure ∧ t = raise e s) ∨
    (commandError i s = none ∧ t = commandDone i s) := by
  rw [exec_eq_ending] at h
  cases he : commandError i s with
  | some e =>
    rw [he] at h
    cases h
    obtain ⟨hok, halloc⟩ := commandError_ne he
    exact .inl ⟨e, hok, halloc, rfl⟩
  | none =>
    rw [he] at h
    cases h
    exact .inr ⟨rfl, rfl⟩

/-- What a command word can do: raise an error, or be a command that succeeds. -/
theorem execute_outcome {w : Word} {s t : State} (h : execute w s = .next t) :
    (∃ e, e ≠ .ok ∧ e ≠ .allocationFailure ∧ t = raise e s) ∨
    (∃ i, decode w = .command i ∧ commandError i s = none ∧ t = commandDone i s) := by
  obtain ⟨i, hd, he⟩ | ⟨why, -, he⟩ := execute_cases w s
  · obtain herr | ⟨hn, rfl⟩ := exec_outcome (he.symm.trans h)
    · exact .inl herr
    · exact .inr ⟨i, hd, hn, rfl⟩
  · rw [he] at h
    cases h
    exact .inl ⟨.illegalCommand, by decide, by decide, rfl⟩

/-- Every command word completes (R158). -/
theorem execute_completes (w : Word) (s : State) : ∃ t, execute w s = .next t := by
  obtain ⟨i, -, he⟩ | ⟨why, -, he⟩ := execute_cases w s
  · exact ⟨_, he.trans (exec_eq_ending i s)⟩
  · exact ⟨_, he⟩

/-! ## The success -/

/-- A command's effect is on the byte spaces and the palette alone. -/
theorem commandEffect_frame (i : Instr) (s : State) :
    ∃ m n p, commandEffect i s = { s with chr := m, pix := n, pal := p } := by
  cases i with
  | dect => obtain ⟨m, hm⟩ := decodeTileAt_frame s.chrBase s.pixBase s; exact ⟨_, _, _, hm⟩
  | enct => obtain ⟨m, hm⟩ := encodeTileAt_frame s.pixBase s.chrBase s; exact ⟨_, _, _, hm⟩
  | decb => obtain ⟨m, hm⟩ := decodeTiles_frame (s.srcLen / 16) s.chrBase s.pixBase s; exact ⟨_, _, _, hm⟩
  | encb => obtain ⟨m, hm⟩ := encodeTiles_frame (s.srcLen / 64) s.pixBase s.chrBase s; exact ⟨_, _, _, hm⟩
  | pinit => exact ⟨_, _, _, pinit_pal s⟩
  | setpx | getpx | pset | pget => exact ⟨_, _, _, rfl⟩

@[simp] theorem commandDone_code (i : Instr) (s : State) : (commandDone i s).code = 0 := rfl

@[simp] theorem commandDone_result (i : Instr) (s : State) :
    (commandDone i s).result = BitVec.ofNat 32 (commandResult i s) := rfl

@[simp] theorem commandDone_anyErr (i : Instr) (s : State) : (commandDone i s).anyErr = s.anyErr := by
  obtain ⟨m, n, p, h⟩ := commandEffect_frame i s
  simp [commandDone, h]

@[simp] theorem commandDone_chrSize (i : Instr) (s : State) : (commandDone i s).chrSize = s.chrSize := by
  obtain ⟨m, n, p, h⟩ := commandEffect_frame i s
  simp [commandDone, h]

@[simp] theorem commandDone_pixSize (i : Instr) (s : State) : (commandDone i s).pixSize = s.pixSize := by
  obtain ⟨m, n, p, h⟩ := commandEffect_frame i s
  simp [commandDone, h]

/-- Only PINIT and PSET of that entry change a palette entry (10_state.md R32). -/
theorem commandDone_palRead {i : Instr} {s : State} {idx : Nat}
    (h : (commandDone i s).palRead idx ≠ s.palRead idx) : i = .pinit ∨ ∃ k, i = .pset k ∧ k % 4 = idx % 4 := by
  have same {m n : Memory} (he : commandEffect i s = { s with chr := m, pix := n }) :
      (commandDone i s).palRead idx = s.palRead idx := by
    rw [commandDone, he]; rfl
  cases i with
  | dect => obtain ⟨m, hm⟩ := decodeTileAt_frame s.chrBase s.pixBase s; exact absurd (same hm) h
  | enct => obtain ⟨m, hm⟩ := encodeTileAt_frame s.pixBase s.chrBase s; exact absurd (same hm) h
  | decb =>
    obtain ⟨m, hm⟩ := decodeTiles_frame (s.srcLen / 16) s.chrBase s.pixBase s; exact absurd (same hm) h
  | encb =>
    obtain ⟨m, hm⟩ := encodeTiles_frame (s.srcLen / 64) s.pixBase s.chrBase s; exact absurd (same hm) h
  | setpx | getpx | pget => exact absurd (same rfl) h
  | pinit => exact .inl rfl
  | pset k =>
    refine .inr ⟨k, rfl, ?_⟩
    by_contra hk
    exact h ((palRead_palWrite s k idx s.color).trans (if_neg (Ne.symm hk)))

/-- A command that passes its checks writes inside the two spaces (20_memory.md R50, R51, R54). -/
theorem commandEffect_memWf {i : Instr} {s : State} (hs : s.memWf) (he : commandError i s = none) :
    (commandEffect i s).memWf := by
  cases i with
  | dect =>
    obtain ⟨-, -, -, hpix⟩ := firstError_eq_none.mp he
    exact (memWf_decodeTileAt _ _ hs hpix).1
  | enct =>
    obtain ⟨-, -, -, hchr⟩ := firstError_eq_none.mp he
    exact (memWf_encodeTileAt _ _ hs hchr).1
  | decb =>
    obtain ⟨hlen, -, -, hpix⟩ := firstError_eq_none.mp he
    have hn : 64 * (s.srcLen / 16) = s.srcLen * 4 := by omega
    exact (memWf_decodeTiles _ _ _ hs (hn ▸ hpix)).1
  | encb =>
    obtain ⟨hlen, -, -, hchr⟩ := firstError_eq_none.mp he
    have hn : 16 * (s.srcLen / 64) = s.srcLen / 4 := by omega
    exact (memWf_encodeTiles _ _ _ hs (hn ▸ hchr)).1
  | setpx x y v =>
    obtain ⟨-, -, hpix⟩ := firstError_eq_none.mp he
    exact memWf_memWrite _ hs hpix
  | pinit =>
    rw [commandEffect, pinit_pal]
    exact hs
  | getpx | pset | pget => exact hs

/-- The value a successful command gives fits RESULT: it does not exceed CAP, or is a byte or a colour. -/
theorem commandResult_lt {i : Instr} {s : State} (he : commandError i s = none) : commandResult i s < 2 ^ 32 := by
  have hcap : s.capacity < 2 ^ 32 := s.cap.isLt
  cases i with
  | dect | enct | setpx | pinit | pset => simp [commandResult]
  | decb | encb =>
    obtain ⟨-, hle, -⟩ := firstError_eq_none.mp he
    exact hle.trans_lt hcap
  | getpx x y => exact (BitVec.isLt _).trans (by decide)
  | pget idx => exact (BitVec.isLt _).trans (by decide)

end Sys2Proof.Machine
end

section
/-! PROOF of O52. The invariant of a state speaks of its sizes, its byte spaces and CODE. A command that raises an error
leaves the first two and a legal CODE; one that succeeds writes inside the spaces. No other transaction than the host's
byte write and the reset input touches any of the three. -/

namespace Sys2Proof.Machine

theorem State.Inv.memWf {s : State} (h : s.Inv) : s.memWf := ⟨h.chr_wf, h.pix_wf⟩

/-- The invariant goes over to a state of the same sizes, with its spaces in canonical form and a legal CODE. -/
theorem State.Inv.of_memWf {s t : State} (h : s.Inv) (hchr : t.chrSize = s.chrSize) (hpix : t.pixSize = s.pixSize)
    (hmem : t.memWf) (hcode : t.code ∈ [0#4, 1#4, 2#4, 4#4, 5#4]) : t.Inv where
  chrSize_lower := hchr ▸ h.chrSize_lower
  chrSize_upper := hchr ▸ h.chrSize_upper
  pixSize_lower := hpix ▸ h.pixSize_lower
  pixSize_upper := hpix ▸ h.pixSize_upper
  chr_wf := hmem.1
  pix_wf := hmem.2
  code_legal := hcode

/-- The invariant does not speak of the transactions to come. -/
theorem State.Inv.awaiting {s : State} (h : s.Inv) (ts : List HostTxn) : (s.awaiting ts).Inv :=
  h.of_memWf rfl rfl h.memWf h.code_legal

/-- The invariant does not speak of the reply. -/
theorem State.Inv.answer {s : State} (h : s.Inv) (r : Reply) : (s.answer r).Inv :=
  h.of_memWf rfl rfl h.memWf h.code_legal

/-- A register write keeps the invariant: the spaces and CODE are no registers the host writes. -/
theorem State.Inv.writeRegister {s : State} (h : s.Inv) (r : RegName) (v : Word) :
    (State.writeRegister r v s).Inv := by
  refine h.of_memWf (by simp) (by simp) ?_ ?_
  · simpa [State.memWf] using h.memWf
  · simpa using h.code_legal

/-- A byte write inside its space keeps the invariant (20_memory.md R67). -/
theorem State.Inv.memWrite {s : State} (h : s.Inv) {sp : Space} {a : Nat} (v : Byte) (ha : a < s.size sp) :
    (State.memWrite sp a v s).Inv :=
  h.of_memWf (by simp) (by simp) (memWf_memWrite v h.memWf ha) (by simpa using h.code_legal)

/-- The reset input keeps the invariant: the sizes stay and nothing is listed any more (R182). -/
theorem State.Inv.applyReset {s : State} (h : s.Inv) : (State.applyReset s).Inv :=
  h.of_memWf rfl rfl ⟨wf_nil _, wf_nil _⟩ List.mem_cons_self

/-- An error keeps the invariant (60_exceptions.md R158). -/
theorem State.Inv.raise {s : State} (h : s.Inv) {e : Completion} (he : e ≠ .allocationFailure) :
    (raise e s).Inv :=
  h.of_memWf rfl rfl h.memWf (toCode_legal he)

/-- A command that passes its checks keeps the invariant. -/
theorem State.Inv.commandDone {s : State} (h : s.Inv) {i : Instr} (he : commandError i s = none) :
    (commandDone i s).Inv :=
  h.of_memWf (commandDone_chrSize i s) (commandDone_pixSize i s) (commandEffect_memWf h.memWf he) List.mem_cons_self

/-- Every command word keeps the invariant. -/
theorem State.Inv.execute {s t : State} (h : s.Inv) {w : Word} (hw : execute w s = .next t) : t.Inv := by
  obtain ⟨e, -, he, rfl⟩ | ⟨i, -, he, rfl⟩ := execute_outcome hw
  · exact h.raise he
  · exact h.commandDone he

/-- Every host transaction keeps the invariant. -/
theorem State.Inv.transact {s u : State} (h : s.Inv) {acc : HostTxn} (ht : transact acc s = .next u) : u.Inv := by
  obtain ⟨w, -, hw⟩ | ⟨off, w, r, -, -, -, rfl⟩ | ⟨off, w, -, -, rfl⟩ | ⟨off, -, rfl⟩ | ⟨sp, a, v, -, ha, rfl⟩ |
    ⟨sp, a, -, -, rfl⟩ | ⟨-, rfl⟩ := transact_cases ht
  · exact (h.answer _).execute hw
  · exact (h.answer _).writeRegister r w
  · exact h.answer _
  · exact h.answer _
  · exact (h.answer _).memWrite v (by simpa using ha)
  · exact h.answer _
  · exact h.applyReset.answer _

/-- Settles O52: a step waits, or is a host transaction. -/
theorem stepKeepsInvariant : Obligations.StepKeepsInvariant := by
  unfold Obligations.StepKeepsInvariant
  intro s t h hstep
  obtain ⟨-, rfl⟩ | ⟨acc, rest, -, ht⟩ := step_cases hstep
  · exact h
  · exact (h.awaiting rest).transact ht

end Sys2Proof.Machine
end

section
/-! SUPPORT. The register window, said once: what an access of a named register, of a reserved offset and of an illegal
width or offset does in a step (10_state.md R21 to R29, R38, R39). -/

namespace Sys2Proof.Machine

theorem registerOffset_lt (r : RegName) : registerOffset r < 64 := by cases r <;> decide

theorem registerOffset_aligned (r : RegName) : registerOffset r % 4 = 0 := by cases r <;> decide

/-- An offset from 0x20 on names no register (R29). -/
theorem registerAt_reserved {off : Nat} (h : 0x20 ≤ off) : registerAt off = none := by
  unfold registerAt
  split
  case h_9 => rfl
  all_goals omega

/-- An access of another width or alignment is refused, wherever it is (R38). -/
theorem atRegister_refused {bytes off : Nat} (k : Option RegName → Host.Outcome State Fault Refusal)
    (h : bytes ≠ 4 ∨ off % 4 ≠ 0) : atRegister bytes off k = .refused (.registerAccess bytes off) :=
  if_pos h

/-- A read of what an offset names completes. -/
theorem readAccess_completes (s : State) (r : Option RegName) : ∃ t, readAccess s r = .next t := by
  cases r <;> exact ⟨_, rfl⟩

/-- A write of what an offset names completes, a command included. -/
theorem writeAccess_completes (v : Word) (s : State) (r : Option RegName) : ∃ t, writeAccess v s r = .next t := by
  cases r with
  | none => exact ⟨_, rfl⟩
  | some r =>
    cases r with
    | cmd => exact execute_completes v s
    | status | chrAddr | pixAddr | len | cap | color | result => exact ⟨_, rfl⟩

/-- A step that reads a register answers with its value and changes nothing else. -/
theorem step_readRegister {s : State} {rest : List HostTxn} (r : RegName)
    (h : s.pending = .readReg 4 (registerOffset r) :: rest) :
    step s = .next { s with pending := rest, reply := .word (s.readRegister r) } := by
  rw [step_of_pending h, transact, atRegister_legal _ (registerOffset_lt r) (registerOffset_aligned r),
    registerAt_registerOffset]
  cases r <;> rfl

/-- A step that writes a register other than CMD stores what `writeRegister` says and nothing else. -/
theorem step_writeRegister {s : State} {rest : List HostTxn} {v : Word} (r : RegName) (hr : r ≠ .cmd)
    (h : s.pending = .writeReg 4 (registerOffset r) v :: rest) :
    step s = .next (State.writeRegister r v { s with pending := rest, reply := .done }) := by
  rw [step_of_pending h, transact, atRegister_legal _ (registerOffset_lt r) (registerOffset_aligned r),
    registerAt_registerOffset]
  cases r with
  | cmd => exact absurd rfl hr
  | status | chrAddr | pixAddr | len | cap | color | result => rfl

/-- STATUS as a number: CODE in bits 3:0, ANYERR in bit 4 (R22). -/
theorem toNat_statusWord (s : State) : s.statusWord.toNat = s.code.toNat + 16 * s.anyErr.toNat := by
  have hcode : s.code.toNat < 2 ^ 4 := s.code.isLt
  have hany : (0#27 ++ BitVec.ofBool s.anyErr).toNat = s.anyErr.toNat := by cases s.anyErr <;> rfl
  rw [State.statusWord, BitVec.toNat_append, hany, ← Nat.shiftLeft_add_eq_or_of_lt hcode, Nat.shiftLeft_eq]
  omega

/-- A host write of STATUS as an equation: ANYERR stays where bit 4 is 0 (R22). -/
theorem writeStatus_eq (v : Word) (s : State) :
    State.writeStatus v s = { s with anyErr := s.anyErr && !v.getLsbD 4 } := by
  unfold State.writeStatus
  cases v.getLsbD 4 <;> simp

end Sys2Proof.Machine
end

section
/-! PROOFS of O12, O1, O13, O14 and O15: the register window, access by access. -/

namespace Sys2Proof.Machine

/-- Settles O12: the width and the alignment are checked first, and every register and reserved offset completes. -/
theorem narrowOrMisalignedAccessIsRefused : Obligations.NarrowOrMisalignedAccessIsRefused := by
  unfold Obligations.NarrowOrMisalignedAccessIsRefused
  rintro s rest bytes off v acc hacc hp
  rw [step_of_pending hp]
  obtain rfl | rfl := hacc
  · refine ⟨atRegister_refused _, ?_⟩
    rintro rfl ha hw
    rw [transact, atRegister_legal _ hw ha]
    exact writeAccess_completes _ _ _
  · refine ⟨atRegister_refused _, ?_⟩
    rintro rfl ha hw
    rw [transact, atRegister_legal _ hw ha]
    exact readAccess_completes _ _

/-- Every register reads 0 after reset (R37). -/
theorem readRegister_reset (r : RegName) : State.reset.readRegister r = 0 := by
  cases r <;> rfl

/-- Settles O1: a read of the window reaches a register that reads 0 or a reserved offset. -/
theorem resetState : Obligations.ResetState := by
  unfold Obligations.ResetState
  refine ⟨?_, rfl, rfl, rfl, rfl, rfl, rfl, rfl, rfl, palRead_uniform rfl, ?_⟩
  · intro off ha hw
    rw [transact, atRegister_legal _ hw ha]
    cases registerAt off with
    | none => rfl
    | some r => rw [readAccess, readRegister_reset]
  · intro sp a
    cases sp <;> rfl

/-- Settles O13: a reserved offset names no register. -/
theorem reservedOffsetsReadZeroIgnoreWrites : Obligations.ReservedOffsetsReadZeroIgnoreWrites := by
  unfold Obligations.ReservedOffsetsReadZeroIgnoreWrites
  intro s rest off hlo hhi ha
  refine ⟨fun hp => ?_, fun v hp => ?_⟩
  all_goals
    rw [step_of_pending hp, transact, atRegister_legal _ (by omega) ha, registerAt_reserved hlo]
    rfl

/-- Settles O14: each read answers with the register's value, two of them as numbers. -/
theorem registerReads : Obligations.RegisterReads := by
  unfold Obligations.RegisterReads
  rintro s rest off hp
  refine ⟨?cmd, ?status, ?chrAddr, ?pixAddr, ?len, ?cap, ?color, ?result⟩
  all_goals rintro rfl
  case cmd => exact step_readRegister .cmd hp
  case status => exact ⟨_, toNat_statusWord s, step_readRegister .status hp⟩
  case chrAddr => exact step_readRegister .chrAddr hp
  case pixAddr => exact step_readRegister .pixAddr hp
  case len => exact step_readRegister .len hp
  case cap => exact step_readRegister .cap hp
  case color =>
    exact ⟨_, BitVec.toNat_setWidth_of_le (by decide), step_readRegister .color hp⟩
  case result => exact step_readRegister .result hp

/-- Settles O15: each write stores the value in its register, COLOR its low 24 bits. -/
theorem registerWrites : Obligations.RegisterWrites := by
  unfold Obligations.RegisterWrites
  rintro s rest off v hp
  refine ⟨?chrAddr, ?pixAddr, ?len, ?cap, ?color, ?result⟩
  all_goals rintro rfl
  case chrAddr => exact step_writeRegister .chrAddr (by decide) hp
  case pixAddr => exact step_writeRegister .pixAddr (by decide) hp
  case len => exact step_writeRegister .len (by decide) hp
  case cap => exact step_writeRegister .cap (by decide) hp
  case color => exact ⟨v.setWidth 24, BitVec.toNat_setWidth 24 v, step_writeRegister .color (by decide) hp⟩
  case result => exact step_writeRegister .result (by decide) hp

end Sys2Proof.Machine
end

section
/-! PROOFS of O16, O38 and O45: what a step and a command leave in STATUS, PAL and RESULT. -/

namespace Sys2Proof.Machine

/-- After a command word CODE is legal, and ANYERR is set exactly when CODE is not 0 (R22; 60_exceptions.md R158,
R159). -/
theorem execute_status {w : Word} {s t : State} (h : execute w s = .next t) :
    t.code ∈ [0#4, 1#4, 2#4, 4#4, 5#4] ∧ t.anyErr = (s.anyErr || t.code != 0) := by
  obtain ⟨e, hok, halloc, rfl⟩ | ⟨i, -, -, rfl⟩ := execute_outcome h
  · refine ⟨toCode_legal halloc, ?_⟩
    rw [raise_code, raise_anyErr, toCode_bne_zero hok, Bool.or_true]
  · exact ⟨List.mem_cons_self, by simp⟩

/-- What a step can do: run a command word, apply the reset input, or leave CODE and PAL. -/
theorem step_outcome {s t : State} (h : step s = .next t) :
    (∃ w rest, s.pending = .writeReg 4 0x00 w :: rest ∧ execute w ((s.awaiting rest).answer .done) = .next t) ∨
    s.pending.head? = some .reset ∨ (t.code = s.code ∧ t.pal = s.pal) := by
  obtain ⟨-, rfl⟩ | ⟨acc, rest, hp, ht⟩ := step_cases h
  · exact .inr (.inr ⟨rfl, rfl⟩)
  obtain ⟨w, rfl, hw⟩ | ⟨off, w, r, -, -, -, rfl⟩ | ⟨off, w, -, -, rfl⟩ | ⟨off, -, rfl⟩ | ⟨sp, a, v, -, -, rfl⟩ |
    ⟨sp, a, -, -, rfl⟩ | ⟨rfl, -⟩ := transact_cases ht
  · exact .inl ⟨w, rest, hp, hw⟩
  · exact .inr (.inr (by simp))
  · exact .inr (.inr ⟨rfl, rfl⟩)
  · exact .inr (.inr ⟨rfl, rfl⟩)
  · exact .inr (.inr (by simp))
  · exact .inr (.inr ⟨rfl, rfl⟩)
  · exact .inr (.inl (by rw [hp]; rfl))

/-- A step that runs no command and no reset leaves CODE (R22). -/
theorem step_code {s t : State} (h : step s = .next t) (hcmd : ∀ w, s.pending.head? ≠ some (.writeReg 4 0x00 w))
    (hreset : s.pending.head? ≠ some .reset) : t.code = s.code := by
  obtain ⟨w, rest, hp, -⟩ | hr | ⟨hcode, -⟩ := step_outcome h
  · exact absurd (by rw [hp]; rfl) (hcmd w)
  · exact absurd hr hreset
  · exact hcode

/-- A step whose next transaction is the reset input applies it (70_reset_and_hazards.md R180). -/
theorem step_reset {s : State} (h : s.pending.head? = some .reset) :
    ∃ rest, step s = .next ((State.applyReset (s.awaiting rest)).answer .done) := by
  obtain ⟨rest, hp⟩ := List.head?_eq_some_iff.mp h
  exact ⟨rest, step_of_pending hp⟩

/-- Settles O16: a host access of STATUS, the end of a command, and every other step. -/
theorem statusRegister : Obligations.StatusRegister := by
  unfold Obligations.StatusRegister
  refine ⟨fun s rest hp => ⟨_, toNat_statusWord s, step_readRegister .status hp⟩, fun s rest v hp => ?write,
    fun w s t h => execute_status h, fun s t h => step_code h, fun s t h hreset => ?reset⟩
  case write =>
    rw [step_writeRegister .status (by decide) hp, State.writeRegister, writeStatus_eq]
  case reset =>
    obtain ⟨rest, hr⟩ := step_reset hreset
    rw [h] at hr
    cases hr
    exact ⟨rfl, rfl⟩

/-- A command word that changes a palette entry is PINIT, or PSET of that entry (R32). -/
theorem execute_palRead {w : Word} {s t : State} {idx : Nat} (h : execute w s = .next t)
    (hne : t.palRead idx ≠ s.palRead idx) :
    decode w = .command .pinit ∨ ∃ k, decode w = .command (.pset k) ∧ k % 4 = idx % 4 := by
  obtain ⟨e, -, -, rfl⟩ | ⟨i, hd, -, rfl⟩ := execute_outcome h
  · exact absurd rfl hne
  · obtain rfl | ⟨k, rfl, hk⟩ := commandDone_palRead hne
    · exact .inl hd
    · exact .inr ⟨k, hd, hk⟩

/-- Settles O38: a step that changes an entry is the reset input or runs a command that writes that entry. -/
theorem paletteWritersAreNamed : Obligations.PaletteWritersAreNamed := by
  unfold Obligations.PaletteWritersAreNamed
  intro s t idx h hne
  obtain ⟨w, rest, hp, hw⟩ | hr | ⟨-, hpal⟩ := step_outcome h
  · exact ⟨.writeReg 4 0x00 w, by rw [hp]; rfl, rfl, execute_palRead hw hne⟩
  · exact ⟨_, hr, trivial⟩
  · exact absurd (congrFun (palRead_congr hpal) idx) hne

/-- A command that ends with CODE = 0 leaves its value in RESULT (R28). -/
theorem exec_result {i : Instr} {s t : State} (h : exec i s = .next t) (hc : t.code = 0) :
    t.result.toNat = commandResult i s := by
  obtain ⟨e, hok, -, rfl⟩ | ⟨hn, rfl⟩ := exec_outcome h
  · exact absurd hc (toCode_ne_zero hok)
  · rw [commandDone_result, BitVec.toNat_ofNat, Nat.mod_eq_of_lt (commandResult_lt hn)]

/-- A command word that ends with CODE ≠ 0 leaves RESULT (R28). -/
theorem execute_result_of_error {w : Word} {s t : State} (h : execute w s = .next t) (hc : t.code ≠ 0) :
    t.result = s.result := by
  obtain ⟨e, -, -, rfl⟩ | ⟨i, -, -, rfl⟩ := execute_outcome h
  · rfl
  · exact absurd rfl hc

/-- Settles O45: the value of each command, and the host's accesses of RESULT. -/
theorem resultOfEachCommand : Obligations.ResultOfEachCommand := by
  unfold Obligations.ResultOfEachCommand
  refine ⟨fun i s t h hc => ?_, fun w s t => execute_result_of_error,
    fun s rest v hp => step_writeRegister .result (by decide) hp, fun s rest hp => step_readRegister .result hp, rfl⟩
  rw [exec_result h hc]
  cases i <;> rfl

end Sys2Proof.Machine
end

section
/-! PROOF of O48. A change of a state that leaves the operands a command reads, the byte spaces and the palette leaves
the command's error and value, and goes through its effect: the codec's loops only read and write bytes. -/

namespace Sys2Proof.Machine

/-- A change f leaves what the command i reads of the state, and byte and palette writes go through it: LEN is read by
DECB and ENCB alone (10_state.md R25), COLOR by PSET alone (R27), STATUS by none (R34). -/
structure UnreadBy (i : Instr) (f : State → State) : Prop where
  chrAddr : ∀ s, (f s).chrAddr = s.chrAddr := by intros; rfl
  pixAddr : ∀ s, (f s).pixAddr = s.pixAddr := by intros; rfl
  cap : ∀ s, (f s).cap = s.cap := by intros; rfl
  len : i = .decb ∨ i = .encb → ∀ s, (f s).len = s.len := by intros; rfl
  color : ∀ idx, i = .pset idx → ∀ s, (f s).color = s.color := by intros; rfl
  size : ∀ s, (f s).size = s.size := by intros; funext sp; cases sp <;> rfl
  memRead : ∀ s, (f s).memRead = s.memRead := by intros; rfl
  palRead : ∀ s, (f s).palRead = s.palRead := by intros; rfl
  memWrite : ∀ sp a v s, State.memWrite sp a v (f s) = f (State.memWrite sp a v s) := by
    intro sp; intros; cases sp <;> rfl
  palWrite : ∀ idx c s, State.palWrite idx c (f s) = f (State.palWrite idx c s) := by intros; rfl

/-- A change that goes through every round goes through the loop. -/
theorem forUpTo_comm {α : Type} {n : Nat} {body : Nat → α → α} {f : α → α}
    (h : ∀ k a, body k (f a) = f (body k a)) (a : α) : forUpTo n body (f a) = f (forUpTo n body a) := by
  induction n with
  | zero => rfl
  | succ n ih => rw [forUpTo_succ, ih, h, forUpTo_succ]

namespace UnreadBy

variable {i : Instr} {f : State → State} (hf : UnreadBy i f) (s : State)
include hf

theorem decodeTileAt_comm (c p : Nat) : decodeTileAt c p (f s) = f (decodeTileAt c p s) := by
  refine forUpTo_comm (fun row t => ?_) s
  simp only [decodeRow, hf.memRead]
  exact forUpTo_comm (fun k u => hf.memWrite _ _ _ u) t

theorem encodeTileAt_comm (p c : Nat) : encodeTileAt p c (f s) = f (encodeTileAt p c s) := by
  refine forUpTo_comm (fun row t => ?_) s
  simp only [encodeRow, readRow, hf.memRead, hf.memWrite]

theorem decodeTiles_comm (n c p : Nat) : decodeTiles n c p (f s) = f (decodeTiles n c p s) :=
  forUpTo_comm (fun _ t => hf.decodeTileAt_comm t _ _) s

theorem encodeTiles_comm (n p c : Nat) : encodeTiles n p c (f s) = f (encodeTiles n p c s) :=
  forUpTo_comm (fun _ t => hf.encodeTileAt_comm t _ _) s

theorem chrBase_eq : (f s).chrBase = s.chrBase := congrArg BitVec.toNat (hf.chrAddr s)

theorem pixBase_eq : (f s).pixBase = s.pixBase := congrArg BitVec.toNat (hf.pixAddr s)

theorem capacity_eq : (f s).capacity = s.capacity := congrArg BitVec.toNat (hf.cap s)

theorem srcLen_eq (h : i = .decb ∨ i = .encb) : (f s).srcLen = s.srcLen := congrArg BitVec.toNat (hf.len h s)

theorem commandError_eq : commandError i (f s) = commandError i s := by
  cases i with
  | dect | enct | setpx | getpx =>
    simp only [commandError, State.InRange, hf.chrBase_eq, hf.pixBase_eq, hf.capacity_eq, hf.size]
  | decb | encb =>
    simp only [commandError, State.InRange, hf.chrBase_eq, hf.pixBase_eq, hf.capacity_eq, hf.size,
      hf.srcLen_eq s (by simp)]
  | pinit | pset | pget => rfl

theorem commandResult_eq : commandResult i (f s) = commandResult i s := by
  cases i with
  | decb | encb => simp only [commandResult, hf.srcLen_eq s (by simp)]
  | getpx x y => simp only [commandResult, hf.memRead, hf.pixBase_eq]
  | pget idx => simp only [commandResult, hf.palRead]
  | dect | enct | setpx | pinit | pset => rfl

theorem commandEffect_comm : commandEffect i (f s) = f (commandEffect i s) := by
  cases i with
  | dect => simp only [commandEffect, hf.chrBase_eq, hf.pixBase_eq, hf.decodeTileAt_comm]
  | enct => simp only [commandEffect, hf.chrBase_eq, hf.pixBase_eq, hf.encodeTileAt_comm]
  | decb =>
    simp only [commandEffect, hf.chrBase_eq, hf.pixBase_eq, hf.srcLen_eq s (.inl rfl), hf.decodeTiles_comm]
  | encb =>
    simp only [commandEffect, hf.chrBase_eq, hf.pixBase_eq, hf.srcLen_eq s (.inr rfl), hf.encodeTiles_comm]
  | setpx x y v => simp only [commandEffect, hf.pixBase_eq, hf.memWrite]
  | pinit => exact forUpTo_comm (fun k t => hf.palWrite k _ t) s
  | pset idx => simp only [commandEffect, hf.color idx rfl, hf.palWrite]
  | getpx | pget => rfl

/-- With the change made before it, a command ends as it would without, but for the change. -/
theorem exec_eq : exec i (f s) = .next (ending (f s)
    (succeed (State.setResult (commandResult i s) (f (commandEffect i s)))) (commandError i s)) := by
  rw [exec_eq_ending, commandDone, hf.commandError_eq, hf.commandResult_eq, hf.commandEffect_comm]

/-- A change that goes through the writes of STATUS and RESULT goes through the command. -/
theorem exec_mapNext (hraise : ∀ e s, raise e (f s) = f (raise e s))
    (hdone : ∀ v s, succeed (State.setResult v (f s)) = f (succeed (State.setResult v s))) :
    exec i (f s) = mapNext f (exec i s) := by
  rw [hf.exec_eq, exec_eq_ending, hdone]
  cases commandError i s with
  | some e => exact congrArg _ (hraise e s)
  | none => rfl

end UnreadBy

/-- No command reads STATUS (R34). -/
theorem unreadBy_status (i : Instr) (c : BitVec 4) (e : Bool) :
    UnreadBy i fun s => { s with code := c, anyErr := e } := {}

/-- Only DECB and ENCB read LEN (R25). -/
theorem unreadBy_len {i : Instr} (l : Word) (hdecb : i ≠ .decb) (hencb : i ≠ .encb) :
    UnreadBy i fun s => { s with len := l } where
  len h := absurd h (not_or.mpr ⟨hdecb, hencb⟩)

/-- Only PSET reads COLOR (R27). -/
theorem unreadBy_color {i : Instr} (c : Color) (hpset : ∀ idx, i ≠ .pset idx) :
    UnreadBy i fun s => { s with color := c } where
  color idx h := absurd h (hpset idx)

/-- With other values in STATUS a command does the same to everything else, and to ANYERR what its CODE says (R34). -/
theorem exec_with_status (i : Instr) {s t : State} (c : BitVec 4) (e : Bool) (h : exec i s = .next t) :
    exec i { s with code := c, anyErr := e } = .next { t with anyErr := e || t.code != 0 } := by
  rw [(unreadBy_status i c e).exec_eq s]
  rw [exec_eq_ending] at h
  cases h
  cases he : commandError i s with
  | some err =>
    obtain ⟨hok, -⟩ := commandError_ne he
    simp only [ending, raise, State.flagError, toCode_bne_zero hok, Bool.or_true]
  | none => simp [ending, commandDone, succeed, State.flagSuccess, State.setResult, Completion.toCode]

/-- Settles O48: each of the three registers is unread by the commands named. -/
theorem unreadRegistersDoNotMatter : Obligations.UnreadRegistersDoNotMatter := by
  unfold Obligations.UnreadRegistersDoNotMatter
  refine ⟨fun i s t c e h => exec_with_status i c e h, fun i s l hdecb hencb => ?len, fun i s c hpset => ?color⟩
  case len => exact (unreadBy_len l hdecb hencb).exec_mapNext s (fun _ _ => rfl) (fun _ _ => rfl)
  case color => exact (unreadBy_color c hpset).exec_mapNext s (fun _ _ => rfl) (fun _ _ => rfl)

end Sys2Proof.Machine
end

section
/-! PROOFS of O17 and O18: the host's byte accesses, and the accesses that stop. -/

namespace Sys2Proof.Machine

/-- A step that writes a byte of a space writes that byte and gives its reply (20_memory.md R67). -/
theorem step_writeByte {s : State} {rest : List HostTxn} {sp : Space} {a : Nat} {v : Byte}
    (hp : s.pending = .writeByte sp a v :: rest) (ha : a < s.size sp) :
    step s = .next (State.memWrite sp a v { s with pending := rest, reply := .done }) := by
  rw [step_of_pending hp]
  exact if_pos ha

/-- A step that reads a byte of a space answers with the byte (20_memory.md R67). -/
theorem step_readByte {s : State} {rest : List HostTxn} {sp : Space} {a : Nat}
    (hp : s.pending = .readByte sp a :: rest) (ha : a < s.size sp) :
    step s = .next { s with pending := rest, reply := .byte (s.memRead sp a) } := by
  rw [step_of_pending hp]
  exact if_pos ha

/-- Settles O17: one byte write and one reply, read by the law of read after write. -/
theorem hostByteAccess : Obligations.HostByteAccess := by
  unfold Obligations.HostByteAccess
  refine ⟨fun s rest sp a v hp ha => ⟨_, step_writeByte hp ha, ?frame, ?pix, ?chr, ?bytes⟩,
    fun s rest sp a => step_readByte⟩
  case frame => cases sp <;> rfl
  case pix => rintro rfl; rfl
  case chr => rintro rfl; rfl
  case bytes => exact memRead_memWrite _ sp a v

/-- A byte access of an address outside its space stops (log 6). -/
theorem transact_outsideSpace {s : State} {acc : HostTxn} {sp : Space} {a : Nat} (ha : s.size sp ≤ a)
    (hacc : acc = .readByte sp a ∨ ∃ v, acc = .writeByte sp a v) : transact acc s = .fault (.noSuchByte sp a) := by
  obtain rfl | ⟨v, rfl⟩ := hacc
  all_goals exact if_neg (Nat.not_lt.mpr ha)

/-- An aligned 32-bit access outside the window stops, whatever it was for (log 7). -/
theorem atRegister_outsideWindow {off : Nat} (k : Option RegName → Host.Outcome State Fault Refusal) (hw : 64 ≤ off)
    (ha : off % 4 = 0) : atRegister 4 off k = .fault (.outsideWindow off) := by
  simp [atRegister, ha, hw]

/-- Settles O18: a byte access by the size of its space, a register access by the size of the window. -/
theorem accessOutsideSpaceOrWindowStops : Obligations.AccessOutsideSpaceOrWindowStops := by
  unfold Obligations.AccessOutsideSpaceOrWindowStops
  intro s rest acc hp
  rw [step_of_pending hp]
  refine ⟨fun sp a ha hacc => transact_outsideSpace ha hacc, fun off hw ha hacc => ?_⟩
  obtain rfl | ⟨v, rfl⟩ := hacc
  all_goals exact atRegister_outsideWindow _ hw ha

end Sys2Proof.Machine
end

section
/-! PROOF of O47. A command that raises an error leaves both spaces; of the effects, only those of ENCT and ENCB write
CHR, and only those of DECT, DECB and SETPX write PIX. -/

namespace Sys2Proof.Machine

@[simp] theorem commandDone_draw (i : Instr) (s : State) : (commandDone i s).draw = s.draw := by
  obtain ⟨m, n, p, h⟩ := commandEffect_frame i s
  simp [commandDone, h]

/-- Only ENCT and ENCB write CHR (20_memory.md R50, R52). -/
theorem commandEffect_chr {i : Instr} (s : State) (henct : i ≠ .enct) (hencb : i ≠ .encb) :
    (commandEffect i s).chr = s.chr := by
  cases i with
  | dect => obtain ⟨m, hm⟩ := decodeTileAt_frame s.chrBase s.pixBase s; rw [commandEffect, hm]
  | decb => obtain ⟨m, hm⟩ := decodeTiles_frame (s.srcLen / 16) s.chrBase s.pixBase s; rw [commandEffect, hm]
  | enct => exact absurd rfl henct
  | encb => exact absurd rfl hencb
  | setpx | getpx | pinit | pset | pget => rfl

/-- Only DECT, DECB and SETPX write PIX (20_memory.md R51, R52). -/
theorem commandEffect_pix {i : Instr} (s : State) (hdect : i ≠ .dect) (hdecb : i ≠ .decb)
    (hsetpx : ∀ x y v, i ≠ .setpx x y v) : (commandEffect i s).pix = s.pix := by
  cases i with
  | enct => obtain ⟨m, hm⟩ := encodeTileAt_frame s.pixBase s.chrBase s; rw [commandEffect, hm]
  | encb => obtain ⟨m, hm⟩ := encodeTiles_frame (s.srcLen / 64) s.pixBase s.chrBase s; rw [commandEffect, hm]
  | dect => exact absurd rfl hdect
  | decb => exact absurd rfl hdecb
  | setpx x y v => exact absurd rfl (hsetpx x y v)
  | getpx | pinit | pset | pget => rfl

/-- Settles O47: an error changes STATUS alone, and a success has the command's effect. -/
theorem spaceWritersAreNamed : Obligations.SpaceWritersAreNamed := by
  unfold Obligations.SpaceWritersAreNamed
  intro i s t h
  obtain ⟨e, -, -, rfl⟩ | ⟨-, rfl⟩ := exec_outcome h
  · exact ⟨fun _ _ => rfl, fun _ _ _ => rfl, rfl, rfl, rfl⟩
  · exact ⟨commandEffect_chr s, commandEffect_pix s, by simp, by simp, by simp⟩

end Sys2Proof.Machine
end

section
/-! PROOF of O20. A byte of a space is listed once it has been written, and no transaction but the reset input takes a
byte off the list or draws new free values (20_memory.md R68; log 4, log 5). -/

namespace Sys2Proof.Machine

/-- From s to t no written byte has become unwritten, and the free values are of the same draw. -/
structure State.KeepsWritten (s t : State) : Prop where
  draw : t.draw = s.draw
  unlisted : ∀ {sp a}, (t.mem sp).lookup a = none → (s.mem sp).lookup a = none

namespace State.KeepsWritten

theorem of_eq {s t : State} (hdraw : t.draw = s.draw) (hchr : t.chr = s.chr) (hpix : t.pix = s.pix) :
    s.KeepsWritten t where
  draw := hdraw
  unlisted {sp _} h := by
    cases sp with
    | chr => simpa only [State.mem, hchr] using h
    | pix => simpa only [State.mem, hpix] using h

theorem trans {s t u : State} (hst : s.KeepsWritten t) (htu : t.KeepsWritten u) : s.KeepsWritten u :=
  ⟨htu.draw.trans hst.draw, fun h => hst.unlisted (htu.unlisted h)⟩

/-- What a byte that is still unwritten reads as has not changed. -/
theorem memRead_eq {s t : State} (hst : s.KeepsWritten t) {sp : Space} {a : Nat}
    (h : (t.mem sp).lookup a = none) : t.memRead sp a = s.memRead sp a := by
  simp only [State.memRead, h, hst.unlisted h, hst.draw]

/-- Writes that list the addresses of c, with the values v, keep every byte that was listed. -/
theorem of_lookup_eq {s t : State} {c : Space → Nat → Prop} [∀ sp a, Decidable (c sp a)] {v : Space → Nat → Byte}
    (hdraw : t.draw = s.draw)
    (h : ∀ sp a, (t.mem sp).lookup a = if c sp a then some (v sp a) else (s.mem sp).lookup a) :
    s.KeepsWritten t where
  draw := hdraw
  unlisted {sp a} hn := by
    rw [h] at hn
    split at hn
    · cases hn
    · exact hn

theorem memWrite (sp : Space) (a : Nat) (v : Byte) (s : State) : s.KeepsWritten (State.memWrite sp a v s) :=
  of_lookup_eq (memWrite_draw s sp a v) (lookup_memWrite s sp a v)

/-- A command's writes list more bytes, or the same (40_tile_codec.md R104 to R107, 41_pixel_access.md R131). -/
theorem commandEffect (i : Instr) (s : State) : s.KeepsWritten (commandEffect i s) := by
  have hdraw : (Machine.commandEffect i s).draw = s.draw := commandDone_draw i s
  cases i with
  | dect => exact of_lookup_eq hdraw (lookup_decodeTileAt s _ _)
  | enct => exact of_lookup_eq hdraw (lookup_encodeTileAt s _ _)
  | decb => exact of_lookup_eq hdraw (lookup_decodeTiles s _ _ _)
  | encb => exact of_lookup_eq hdraw (lookup_encodeTiles s _ _ _)
  | setpx => exact memWrite .pix _ _ s
  | getpx | pinit | pset | pget => exact of_eq rfl rfl rfl

/-- No command word makes a written byte unwritten, an error among its outcomes. -/
theorem execute {w : Word} {s t : State} (h : execute w s = .next t) : s.KeepsWritten t := by
  obtain ⟨e, -, -, rfl⟩ | ⟨i, -, -, rfl⟩ := execute_outcome h
  · exact of_eq rfl rfl rfl
  · exact (commandEffect i s).trans (of_eq rfl rfl rfl)

/-- Of the host transactions, only the reset input makes written bytes unwritten (70_reset_and_hazards.md R182). -/
theorem transact {acc : HostTxn} {s u : State} (h : transact acc s = .next u) (hreset : acc ≠ .reset) :
    s.KeepsWritten u := by
  have hanswer (r : Reply) : s.KeepsWritten (s.answer r) := of_eq rfl rfl rfl
  obtain ⟨w, -, hw⟩ | ⟨off, w, r, -, -, -, rfl⟩ | ⟨off, w, -, -, rfl⟩ | ⟨off, -, rfl⟩ | ⟨sp, a, v, -, -, rfl⟩ |
    ⟨sp, a, -, -, rfl⟩ | ⟨rfl, -⟩ := transact_cases h
  · exact (hanswer _).trans (execute hw)
  · exact of_eq (by simp) (by simp) (by simp)
  · exact hanswer _
  · exact hanswer _
  · exact (hanswer _).trans (memWrite sp a v _)
  · exact hanswer _
  · exact absurd rfl hreset

/-- A step whose transaction is not the reset input keeps every written byte written. -/
theorem step {s t : State} (h : step s = .next t) (hreset : s.pending.head? ≠ some .reset) : s.KeepsWritten t := by
  obtain ⟨-, rfl⟩ | ⟨acc, rest, hp, ht⟩ := step_cases h
  · exact of_eq rfl rfl rfl
  · have hacc : acc ≠ .reset := by
      rintro rfl
      exact hreset (by rw [hp]; rfl)
    have hawaiting : s.KeepsWritten (s.awaiting rest) := of_eq rfl rfl rfl
    exact hawaiting.trans (transact ht hacc)

end State.KeepsWritten

/-- Settles O20: a step without the reset input keeps what is written. -/
theorem unwrittenByteKeepsItsValue : Obligations.UnwrittenByteKeepsItsValue := by
  unfold Obligations.UnwrittenByteKeepsItsValue
  intro s t h hreset sp a
  have hst := State.KeepsWritten.step h hreset
  exact ⟨fun hn => ⟨hst.unlisted hn, hst.memRead_eq hn⟩, hst.draw⟩

end Sys2Proof.Machine
end

section
/-! PROOF of O30. DECB's tiles follow one another in PIX, 64 bytes each, so at 8 bytes a row they stand below one
another and are one image 8 wide and 8 rows high for each tile; a long sprite is the image of two tiles (R58). -/

namespace Sys2Proof.Machine

@[simp] theorem commandDone_pixAddr (i : Instr) (s : State) : (commandDone i s).pixAddr = s.pixAddr := by
  obtain ⟨m, n, p, h⟩ := commandEffect_frame i s
  simp [commandDone, h]

@[simp] theorem commandDone_cap (i : Instr) (s : State) : (commandDone i s).cap = s.cap := by
  obtain ⟨m, n, p, h⟩ := commandEffect_frame i s
  simp [commandDone, h]

/-- A command whose checks hold has its effect. -/
theorem exec_of_commandError_none {i : Instr} {s : State} (h : commandError i s = none) :
    exec i s = .next (commandDone i s) := by
  rw [exec_eq_ending, h]
  rfl

/-- DECB under its conditions (40_tile_codec.md R106). -/
theorem exec_decb_of_ready {s : State} (h : s.DecbReady) : exec .decb s = .next (commandDone .decb s) :=
  exec_of_commandError_none (firstError_eq_none.mpr ⟨h.len, h.cap, h.chr, h.pix⟩)

/-- GETPX under its conditions (41_pixel_access.md R132). -/
theorem exec_getpx_of_ready {s : State} {x y : Nat} (h : s.PixelReady x y) :
    exec (.getpx x y) s = .next (commandDone (.getpx x y) s) :=
  exec_of_commandError_none (firstError_eq_none.mpr ⟨trivial, h.cap, h.pix⟩)

/-- The pixel in column x and row y of the image that n decoded tiles are: tile y/8, row y mod 8 (R57, R58). -/
theorem toNat_memRead_decodeTiles (s : State) (n c p : Nat) {x y : Nat} (hx : x < 8) (hy : y < 8 * n) :
    ((decodeTiles n c p s).memRead .pix (p + pixOffset x y)).toNat =
      colourIndex (s.memRead .chr (c + 16 * (y / 8) + y % 8)) (s.memRead .chr (c + 16 * (y / 8) + 8 + y % 8)) x := by
  unfold pixOffset
  have htile : (y * 8 + x) / 64 = y / 8 := by omega
  have hrow : (y * 8 + x) % 64 / 8 = y % 8 := by omega
  have hcol : (y * 8 + x) % 64 % 8 = x := by omega
  rw [memRead_decodeTiles, if_pos ⟨rfl, by omega, by omega⟩, Nat.add_sub_cancel_left, tilePixel, htile, hrow, hcol,
    demuxPixel_toNat]

/-- After DECB every pixel of the decoded bytes is one that GETPX reaches: the checks of DECB cover those of GETPX. -/
theorem pixelReady_commandDone_decb {s : State} (h : s.DecbReady) {x y : Nat} (ha : y * 8 + x < s.len.toNat * 4) :
    (commandDone .decb s).PixelReady x y where
  cap := by rw [commandDone_cap]; exact ha.trans_le h.cap
  pix := by
    have := h.pix
    rw [commandDone_pixAddr, commandDone_pixSize]
    omega

/-- Settles O30: GETPX of the image of two decoded tiles. -/
theorem longSpriteIsOneImage : Obligations.LongSpriteIsOneImage := by
  unfold Obligations.LongSpriteIsOneImage
  intro s hs hlen
  have hlen : s.len.toNat = 32 := by rw [hlen]; rfl
  refine ⟨_, exec_decb_of_ready hs, fun x y hx hy => ?_⟩
  have hget := exec_getpx_of_ready (pixelReady_commandDone_decb hs (x := x) (y := y) (by omega))
  refine ⟨_, hget, rfl, ?_⟩
  have hbase : (commandDone .decb s).pixBase = s.pixBase := congrArg BitVec.toNat (commandDone_pixAddr _ s)
  have htiles : s.srcLen / 16 = 2 := by rw [State.srcLen, hlen]
  calc (commandDone (.getpx x y) (commandDone .decb s)).result.toNat
    _ = ((decodeTiles (s.srcLen / 16) s.chrBase s.pixBase s).memRead .pix (s.pixBase + pixOffset x y)).toNat := by
      rw [exec_result hget rfl, commandResult, hbase]
      rfl
    _ = _ := toNat_memRead_decodeTiles s _ _ _ hx (by omega)

end Sys2Proof.Machine
end

section
/-! SUPPORT. Command words, said once: which commands are well-formed, and a word put together again from its fields
(30_encoding.md R71 to R74, R80). -/

namespace Sys2Proof

/-! ## Which commands are well-formed -/

@[simp] theorem fitsByte_iff (n : Nat) : fitsByte n = true ↔ n < 256 := decide_eq_true_iff

@[simp] theorem wf_setpx (x y v : Nat) : (Instr.setpx x y v).wf = true ↔ x < 256 ∧ y < 256 ∧ v < 256 := by
  simp [Instr.wf, and_assoc]

@[simp] theorem wf_getpx (x y : Nat) : (Instr.getpx x y).wf = true ↔ x < 256 ∧ y < 256 := by
  simp [Instr.wf]

@[simp] theorem wf_pset (idx : Nat) : (Instr.pset idx).wf = true ↔ idx < 256 := fitsByte_iff idx

@[simp] theorem wf_pget (idx : Nat) : (Instr.pget idx).wf = true ↔ idx < 256 := fitsByte_iff idx

theorem fieldX_lt (w : Word) : fieldX w < 256 := BitVec.isLt _

theorem fieldY_lt (w : Word) : fieldY w < 256 := BitVec.isLt _

theorem fieldV_lt (w : Word) : fieldV w < 256 := BitVec.isLt _

theorem fieldIdx_lt (w : Word) : fieldIdx w < 256 := BitVec.isLt _

/-! ## A word is its format's fields -/

/-- A format N word is its OP when its reserved field is zero (R72). -/
theorem formatN_of_fields {w : Word} {op : Byte} (hop : fieldOp w = op.toNat) (hrsv : reservedN w = 0) :
    formatN op = w := by
  rw [fieldOp_eq] at hop
  rw [reservedN_eq] at hrsv
  apply BitVec.eq_of_toNat_eq
  rw [toNat_formatN]
  omega

/-- A format P word is its four fields, V the zeros of GETPX too (R73). -/
theorem formatP_of_fields {w : Word} {v : Nat} {op : Byte} (hop : fieldOp w = op.toNat) (hv : fieldV w = v) :
    formatP v (fieldY w) (fieldX w) op = w := by
  have hw := w.isLt
  rw [fieldOp_eq] at hop
  rw [fieldV_eq] at hv
  apply BitVec.eq_of_toNat_eq
  rw [toNat_formatP, fieldX_eq, fieldY_eq]
  omega

/-- A format C word is its OP and its IDX when its reserved field is zero (R74). -/
theorem formatC_of_fields {w : Word} {op : Byte} (hop : fieldOp w = op.toNat) (hrsv : reservedC w = 0) :
    formatC (fieldIdx w) op = w := by
  rw [fieldOp_eq] at hop
  rw [reservedC_eq] at hrsv
  apply BitVec.eq_of_toNat_eq
  rw [toNat_formatC, fieldIdx_eq]
  omega

end Sys2Proof
end

section
/-! PROOFS of O4, O5 and O6: the decoder and the encoder are inverse to one another. -/

namespace Sys2Proof

/-- The decoder reads back a command whose fields fit. -/
theorem decode_encode {i : Instr} (h : i.wf = true) : decode (encode i) = .command i := by
  cases i with
  | dect | enct | decb | encb | pinit => decide
  | setpx x y v =>
    obtain ⟨hx, hy, hv⟩ := (wf_setpx x y v).mp h
    simp [encode, decode, Nat.mod_eq_of_lt, hx, hy, hv]
  | getpx x y =>
    obtain ⟨hx, hy⟩ := (wf_getpx x y).mp h
    simp [encode, decode, whenZero, Nat.mod_eq_of_lt, hx, hy]
  | pset idx => simp [encode, decode, whenZero, Nat.mod_eq_of_lt ((wf_pset idx).mp h)]
  | pget idx => simp [encode, decode, whenZero, Nat.mod_eq_of_lt ((wf_pget idx).mp h)]

/-- Settles O4: each field of a format reads back the value written to it. -/
theorem decodeOfEncode : Obligations.DecodeOfEncode := by
  unfold Obligations.DecodeOfEncode
  exact fun _ => decode_encode

/-- Settles O5: each format's word is the sum of its fields in their places. -/
theorem encodedWords : Obligations.EncodedWords := by
  unfold Obligations.EncodedWords
  intro i h
  cases i with
  | dect | enct | decb | encb | pinit => exact toNat_formatN _
  | setpx x y v =>
    obtain ⟨hx, hy, hv⟩ := (wf_setpx x y v).mp h
    simp [encode, toNat_formatP, Nat.mod_eq_of_lt, hx, hy, hv]
  | getpx x y =>
    obtain ⟨hx, hy⟩ := (wf_getpx x y).mp h
    simp [encode, toNat_formatP, Nat.mod_eq_of_lt, hx, hy]
  | pset idx => simp [encode, toNat_formatC, Nat.mod_eq_of_lt ((wf_pset idx).mp h)]
  | pget idx => simp [encode, toNat_formatC, Nat.mod_eq_of_lt ((wf_pget idx).mp h)]

/-- A word that decodes to a command is the encoding of that command, whose fields fit. -/
theorem encode_of_decode {w : Word} {i : Instr} (h : decode w = .command i) : i.wf = true ∧ encode i = w := by
  obtain ⟨op, j, hmem, hop, hd⟩ | ⟨hop, hd⟩ | ⟨hop, hd⟩ | ⟨hop, hd⟩ | ⟨hop, hd⟩ | ⟨-, hd⟩ := decode_cases w
  case inl =>
    obtain ⟨hrsv, rfl⟩ := whenZero_eq_command.mp (hd.symm.trans h)
    simp only [List.mem_cons, Prod.mk.injEq, List.not_mem_nil, or_false] at hmem
    obtain ⟨rfl, rfl⟩ | ⟨rfl, rfl⟩ | ⟨rfl, rfl⟩ | ⟨rfl, rfl⟩ | ⟨rfl, rfl⟩ := hmem
    all_goals exact ⟨rfl, formatN_of_fields hop hrsv⟩
  · obtain rfl := Decoded.command.inj (hd.symm.trans h)
    exact ⟨(wf_setpx _ _ _).mpr ⟨fieldX_lt w, fieldY_lt w, fieldV_lt w⟩, formatP_of_fields hop rfl⟩
  · obtain ⟨hrsv, rfl⟩ := whenZero_eq_command.mp (hd.symm.trans h)
    exact ⟨(wf_getpx _ _).mpr ⟨fieldX_lt w, fieldY_lt w⟩, formatP_of_fields hop hrsv⟩
  · obtain ⟨hrsv, rfl⟩ := whenZero_eq_command.mp (hd.symm.trans h)
    exact ⟨(wf_pset _).mpr (fieldIdx_lt w), formatC_of_fields hop hrsv⟩
  · obtain ⟨hrsv, rfl⟩ := whenZero_eq_command.mp (hd.symm.trans h)
    exact ⟨(wf_pget _).mpr (fieldIdx_lt w), formatC_of_fields hop hrsv⟩
  · cases hd.symm.trans h

/-- Settles O6: the fields a command is read from, put together, are the word. -/
theorem encodeOfDecode : Obligations.EncodeOfDecode := by
  unfold Obligations.EncodeOfDecode
  exact fun _ _ => encode_of_decode

end Sys2Proof
end

section
/-! PROOF of O7. A row of the opcode map selects the encodings of its command and no other word, so a word
selects a row exactly when it decodes to a command (30_encoding.md R75, R77, R79). -/

namespace Sys2Proof

theorem mem_opcodeMap_iff {r : OpcodeRow} : r ∈ opcodeMap ↔ ∃ i, opcodeRow i = r := by
  constructor
  · intro h
    simp only [opcodeMap, List.mem_cons, List.not_mem_nil, or_false] at h
    obtain rfl | rfl | rfl | rfl | rfl | rfl | rfl | rfl | rfl := h
    exacts [⟨.dect, rfl⟩, ⟨.enct, rfl⟩, ⟨.decb, rfl⟩, ⟨.encb, rfl⟩, ⟨.setpx 0 0 0, rfl⟩, ⟨.getpx 0 0, rfl⟩,
      ⟨.pinit, rfl⟩, ⟨.pset 0, rfl⟩, ⟨.pget 0, rfl⟩]
  · rintro ⟨i, rfl⟩
    cases i <;> simp [opcodeRow, opcodeMap]

/-- The encoding of a command selects the command's row. -/
theorem opcodeRow_selects_encode (i : Instr) : (opcodeRow i).selects (encode i) = true := by
  cases i with
  | dect => exact Laws.EncodeSelectsRow.dect
  | enct => exact Laws.EncodeSelectsRow.enct
  | decb => exact Laws.EncodeSelectsRow.decb
  | encb => exact Laws.EncodeSelectsRow.encb
  | setpx x y v => exact Laws.EncodeSelectsRow.setpx x y v
  | getpx x y => exact Laws.EncodeSelectsRow.getpx x y
  | pinit => exact Laws.EncodeSelectsRow.pinit
  | pset idx => exact Laws.EncodeSelectsRow.pset idx
  | pget idx => exact Laws.EncodeSelectsRow.pget idx

/-- A word that selects a command's row is the encoding of a well-formed command of that row. -/
theorem encode_of_selects {i : Instr} {w : Word} (h : (opcodeRow i).selects w = true) :
    ∃ j, opcodeRow j = opcodeRow i ∧ j.wf = true ∧ encode j = w := by
  cases i with
  | dect | enct | decb | encb | pinit =>
    exact ⟨_, rfl, rfl, (beq_iff_eq.mp h).symm.trans (and_maskN w)⟩
  | setpx =>
    have hop := (selects_rowSetpx w).mp h
    exact ⟨.setpx (fieldX w) (fieldY w) (fieldV w), rfl,
      (wf_setpx _ _ _).mpr ⟨fieldX_lt w, fieldY_lt w, fieldV_lt w⟩, formatP_of_fields hop rfl⟩
  | getpx =>
    obtain ⟨hop, hrsv⟩ := (selects_rowGetpx w).mp h
    exact ⟨.getpx (fieldX w) (fieldY w), rfl, (wf_getpx _ _).mpr ⟨fieldX_lt w, fieldY_lt w⟩,
      formatP_of_fields hop hrsv⟩
  | pset =>
    obtain ⟨hop, hrsv⟩ := (selects_rowC w 0x08#8).mp h
    exact ⟨.pset (fieldIdx w), rfl, (wf_pset _).mpr (fieldIdx_lt w), formatC_of_fields hop hrsv⟩
  | pget =>
    obtain ⟨hop, hrsv⟩ := (selects_rowC w 0x09#8).mp h
    exact ⟨.pget (fieldIdx w), rfl, (wf_pget _).mpr (fieldIdx_lt w), formatC_of_fields hop hrsv⟩

/-- A word selects a row of the map exactly when it decodes to a command of that row. -/
theorem selects_iff_decode {r : OpcodeRow} (hr : r ∈ opcodeMap) (w : Word) :
    r.selects w = true ↔ ∃ i, opcodeRow i = r ∧ decode w = .command i := by
  constructor
  · intro h
    obtain ⟨i, rfl⟩ := mem_opcodeMap_iff.mp hr
    obtain ⟨j, hrow, hwf, rfl⟩ := encode_of_selects h
    exact ⟨j, hrow, decode_encode hwf⟩
  · rintro ⟨i, rfl, hd⟩
    obtain ⟨-, rfl⟩ := encode_of_decode hd
    exact opcodeRow_selects_encode i

/-- A word that decodes to no command selects no row. -/
theorem selects_eq_false {w : Word} (h : ∀ i, decode w ≠ .command i) {r : OpcodeRow} (hr : r ∈ opcodeMap) :
    r.selects w = false := by
  rw [Bool.eq_false_iff, Ne, selects_iff_decode hr]
  rintro ⟨i, -, hd⟩
  exact h i hd

/-- Settles O7: the rows a word selects are those of the commands it decodes to, and it decodes to one at most. -/
theorem decodeAgreesWithOpcodeMap : Obligations.DecodeAgreesWithOpcodeMap := by
  unfold Obligations.DecodeAgreesWithOpcodeMap
  refine ⟨fun w i hd => ?_, fun w why hd r hr => ?_, fun w r hr r' hr' hs hs' => ?_⟩
  · have hr : opcodeRow i ∈ opcodeMap := mem_opcodeMap_iff.mpr ⟨i, rfl⟩
    exact ⟨hr, (selects_iff_decode hr w).mpr ⟨i, rfl, hd⟩⟩
  · refine selects_eq_false (fun i hi => ?_) hr
    cases hd.symm.trans hi
  · obtain ⟨i, rfl, hi⟩ := (selects_iff_decode hr w).mp hs
    obtain ⟨j, rfl, hj⟩ := (selects_iff_decode hr' w).mp hs'
    rw [Decoded.command.inj (hi.symm.trans hj)]

end Sys2Proof
end

section
/-! PROOFS of O8 and O9. A word that decodes to a command is the number of one of the nine words of O5, so its OP is
defined and its reserved bits are zero (30_encoding.md R76, R77). -/

namespace Sys2Proof.Machine

/-- A word that decodes to no command raises IllegalCommand and changes nothing but STATUS (60_exceptions.md R152). -/
theorem execute_of_no_command {w : Word} (h : ∀ i, decode w ≠ .command i) (s : State) :
    execute w s = .next { s with code := 5, anyErr := true } := by
  obtain ⟨i, hd, -⟩ | ⟨why, -, he⟩ := execute_cases w s
  · exact absurd hd (h i)
  · exact he

/-- Settles O8: the number of every command's word has one of nine opcodes. -/
theorem reservedOpcodeIsIllegal : Obligations.ReservedOpcodeIsIllegal := by
  unfold Obligations.ReservedOpcodeIsIllegal
  intro w s hop
  have hno : ∀ i, decode w ≠ .command i := by
    intro i hd
    obtain ⟨hwf, rfl⟩ := encode_of_decode hd
    rw [encodedWords i hwf] at hop
    cases i with
    | dect | enct | decb | encb | pinit => revert hop; decide
    | setpx | getpx | pset | pget => simp only at hop; omega
  exact ⟨hno, execute_of_no_command hno s⟩

/-- Settles O9: the number of every command's word has zeros in the reserved field of its format. -/
theorem reservedFieldIsIllegal : Obligations.ReservedFieldIsIllegal := by
  unfold Obligations.ReservedFieldIsIllegal
  intro w s hrsv
  simp only [List.mem_cons, List.not_mem_nil, or_false] at hrsv
  have hno : ∀ i, decode w ≠ .command i := by
    intro i hd
    obtain ⟨hwf, rfl⟩ := encode_of_decode hd
    rw [encodedWords i hwf] at hrsv
    cases i with
    | dect | enct | decb | encb | pinit => revert hrsv; decide
    | setpx x y v => simp only at hrsv; omega
    | getpx x y =>
      obtain ⟨hx, hy⟩ := (wf_getpx x y).mp hwf
      simp only at hrsv
      omega
    | pset idx =>
      have hidx := (wf_pset idx).mp hwf
      simp only at hrsv
      omega
    | pget idx =>
      have hidx := (wf_pget idx).mp hwf
      simp only at hrsv
      omega
  exact ⟨hno, fun r hr => selects_eq_false hno hr, execute_of_no_command hno s⟩

end Sys2Proof.Machine
end

section
/-! PROOFS of O3 and O10: sample words, and the step that runs a command. -/

namespace Sys2Proof.Machine

/-- Settles O3: each word is the encoding of its command. -/
theorem sampleWordsDecode : Obligations.SampleWordsDecode := by
  unfold Obligations.SampleWordsDecode
  exact ⟨decode_encode (i := .dect) rfl, decode_encode (i := .encb) rfl, decode_encode (i := .setpx 5 2 9) rfl,
    decode_encode (i := .getpx 5 2) rfl, decode_encode (i := .pinit) rfl, decode_encode (i := .pset 4) rfl,
    decode_encode (i := .pget 255) rfl⟩

/-- A word that decodes to a command runs it. -/
theorem execute_of_decode {w : Word} {i : Instr} (h : decode w = .command i) (s : State) :
    execute w s = exec i s := by
  rw [execute, h]

/-- A step whose next transaction is a write of CMD runs the word written (10_state.md R21). -/
theorem step_writeCmd {s : State} {rest : List HostTxn} {w : Word} (h : s.pending = .writeReg 4 0x00 w :: rest) :
    step s = execute w { s with pending := rest, reply := .done } :=
  step_of_pending h

theorem decodeTableWord_eq_some {nbits w : Nat} {i : Instr} (h : decodeTableWord nbits w = some i) :
    decode (BitVec.ofNat 32 (w % 2 ^ nbits)) = .command i := by
  unfold decodeTableWord at h
  split at h
  case h_1 hd => rw [hd, Option.some.inj h]
  case h_2 => cases h

/-- Settles O10: withFetchWord places a write of CMD. -/
theorem stepRunsDecodedCommand : Obligations.StepRunsDecodedCommand := by
  unfold Obligations.StepRunsDecodedCommand
  refine ⟨fun s rest w i hp hd => ?_, fun s nbits w i hd => ?_⟩
  · rw [step_writeCmd hp, execute_of_decode hd]
  · rw [step_writeCmd (s := s.withFetchWord nbits w) rfl, execute_of_decode (decodeTableWord_eq_some hd)]
    rfl

end Sys2Proof.Machine
end

section
/-! PROOF of O49. A program line is refused exactly when a line of its expansion is ill-formed, and is otherwise the
transactions of its expansion (30_encoding.md R80, R81). -/

namespace Sys2Proof.Machine

@[simp] theorem AsmLine.wf_wr (r : RegRef) (imm : Nat) : (AsmLine.wr r imm).wf = true ↔ imm < 2 ^ 32 :=
  decide_eq_true_iff

@[simp] theorem AsmLine.wf_wrb (sp : Space) (addr imm : Nat) : (AsmLine.wrb sp addr imm).wf = true ↔ imm < 256 :=
  fitsByte_iff imm

@[simp] theorem AsmLine.wf_command (i : Instr) : (AsmLine.command i).wf = i.wf := rfl

/-- A line is refused when a line of its expansion is. -/
theorem assemble_refuses {l : SourceLine} {a : AsmLine} (ha : a ∈ expandLine l) (hwf : ¬ a.wf = true) :
    assemble [l] = none := by
  rw [assemble_eq, List.flatMap_singleton, if_neg]
  exact fun hall => hwf (List.all_eq_true.mp hall a ha)

/-- A line whose expansion is well-formed is the transactions of its expansion. -/
theorem assemble_accepts {l : SourceLine} (h : ∀ a ∈ expandLine l, a.wf = true) :
    assemble [l] = some ((expandLine l).map lineTxn) := by
  rw [assemble_eq, List.flatMap_singleton, if_pos (List.all_eq_true.mpr h)]

theorem assemble_plain {l : AsmLine} (h : l.wf = true) : assemble [.plain l] = some [lineTxn l] :=
  assemble_accepts (l := .plain l) fun _ ha => List.mem_singleton.mp ha ▸ h

theorem assemble_plain_refuses {l : AsmLine} (h : ¬ l.wf = true) : assemble [.plain l] = none :=
  assemble_refuses (l := .plain l) (List.mem_singleton_self l) h

/-- A pseudo-instruction is refused when a value it writes to a register needs more than 32 bits. -/
theorem assemble_pseudo_refuses {p : Pseudo} {r : RegRef} {imm : Nat} (h : 2 ^ 32 ≤ imm)
    (hmem : AsmLine.wr r imm ∈ expandPseudo p) : assemble [.pseudo p] = none :=
  assemble_refuses (l := .pseudo p) hmem fun hwf => absurd ((AsmLine.wf_wr r imm).mp hwf) (Nat.not_lt.mpr h)

/-- Settles O49: the bounds on what is refused are those on what is accepted, line by line. -/
theorem assemblerRefusesValuesThatDoNotFit : Obligations.AssemblerRefusesValuesThatDoNotFit := by
  unfold Obligations.AssemblerRefusesValuesThatDoNotFit
  refine ⟨?wr, ?wrb, ?setpx, ?getpx, ?palette, ?tiles, ?psetc, ?registers, ?bytes, ?commands, assemble_append⟩
  case wr => exact fun r imm h => assemble_plain_refuses (by simpa using h)
  case wrb => exact fun sp addr imm h => assemble_plain_refuses (by simpa using h)
  case setpx => exact fun x y v h => assemble_plain_refuses (by rw [AsmLine.wf_command, wf_setpx]; omega)
  case getpx => exact fun x y h => assemble_plain_refuses (by rw [AsmLine.wf_command, wf_getpx]; omega)
  case palette =>
    exact fun idx h => ⟨assemble_plain_refuses (by simpa using h), assemble_plain_refuses (by simpa using h)⟩
  case tiles =>
    rintro a b (h | h)
    · have hfirst {p : Pseudo} {r : RegRef} {ls : List AsmLine} (hp : expandPseudo p = .wr r a :: ls) :=
        assemble_pseudo_refuses h (hp ▸ List.mem_cons_self)
      exact ⟨hfirst rfl, hfirst rfl, hfirst rfl, hfirst rfl⟩
    · have hsecond {p : Pseudo} {r : RegRef} {l : AsmLine} {ls : List AsmLine}
          (hp : expandPseudo p = l :: .wr r b :: ls) :=
        assemble_pseudo_refuses h (hp ▸ List.mem_cons_of_mem l List.mem_cons_self)
      exact ⟨hsecond rfl, hsecond rfl, hsecond rfl, hsecond rfl⟩
  case psetc =>
    rintro idx rgb (h | h)
    · exact assemble_refuses (a := .command (.pset idx)) (by simp [expandLine, expandPseudo]) (by simpa using h)
    · exact assemble_pseudo_refuses (r := .name .color) h List.mem_cons_self
  case registers =>
    intro r off hr
    have hoff : refOffset r = off := by
      simp only [List.mem_cons, Prod.mk.injEq, List.not_mem_nil, or_false] at hr
      obtain rfl | ⟨rfl, rfl⟩ | ⟨rfl, rfl⟩ | ⟨rfl, rfl⟩ | ⟨rfl, rfl⟩ | ⟨rfl, rfl⟩ | ⟨rfl, rfl⟩ | ⟨rfl, rfl⟩ |
        ⟨rfl, rfl⟩ := hr
      all_goals rfl
    subst hoff
    exact ⟨assemble_plain rfl, fun imm h =>
      ⟨BitVec.ofNat _ imm, Nat.mod_eq_of_lt h, assemble_plain ((AsmLine.wf_wr r imm).mpr h)⟩⟩
  case bytes =>
    exact fun sp addr => ⟨assemble_plain rfl, fun imm h =>
      ⟨BitVec.ofNat _ imm, Nat.mod_eq_of_lt h, assemble_plain ((AsmLine.wf_wrb sp addr imm).mpr h)⟩⟩
  case commands =>
    intro i hsetpx hgetpx hpal
    have hwf : i.wf = true := by
      cases i with
      | dect | enct | decb | encb | pinit => rfl
      | setpx x y v => exact (wf_setpx x y v).mpr (hsetpx x y v rfl)
      | getpx x y => exact (wf_getpx x y).mpr (hgetpx x y rfl)
      | pset idx => exact (wf_pset idx).mpr (hpal idx (.inl rfl))
      | pget idx => exact (wf_pget idx).mpr (hpal idx (.inr rfl))
    exact ⟨encode i, assemble_plain hwf, encodedWords i hwf⟩

end Sys2Proof.Machine
end

section
/-! PROOF of O50. Each pseudo-instruction writes some registers and then runs a command, so the five expansions
are cases of one law, proved by induction on the register writes (30_encoding.md R81). -/

namespace Sys2Proof.Machine

/-- The lines that write registers, in order, and then run a command. -/
def writesThenCommand (ws : List (RegName × Nat)) (i : Instr) : List AsmLine :=
  ws.map (fun w => .wr (.name w.1) w.2) ++ [.command i]

/-- The state after host writes of registers, in order. -/
def State.writeRegisters (ws : List (RegName × Nat)) (s : State) : State :=
  ws.foldl (fun t w => State.writeRegister w.1 (BitVec.ofNat 32 w.2) t) s

/-- A register write neither reads nor changes the model's own fields (log 1, log 2). -/
theorem writeRegister_awaiting_answer (r : RegName) (v : Word) (ts : List HostTxn) (a : Reply) (s : State) :
    State.writeRegister r v ((s.awaiting ts).answer a) = ((State.writeRegister r v s).awaiting ts).answer a := by
  cases r with
  | status => simp only [State.writeRegister, writeStatus_eq]; rfl
  | cmd | chrAddr | pixAddr | len | cap | color | result => rfl

/-- A register write that stands first in a program stores its value, and the rest of the program is to come. -/
theorem step_awaiting_writeReg {r : RegName} (hr : r ≠ .cmd) (v : Word) (ts : List HostTxn) (s : State) :
    step (s.awaiting (.writeReg 4 (registerOffset r) v :: ts)) =
      .next (((State.writeRegister r v s).answer .done).awaiting ts) :=
  (step_writeRegister r hr rfl).trans (congrArg _ (writeRegister_awaiting_answer r v ts .done s))

theorem run_succ_of_step {s t : State} (h : step s = .next t) (k : Nat) :
    Host.Core.run Sys2Proof.core (k + 1) s = Host.Core.run Sys2Proof.core k t := by
  have hcore : Sys2Proof.core.step s = .next t := h
  simp only [Host.Core.run, hcore]

/-- The run of register writes and a command is the command in the state with the registers written. -/
theorem run_writesThenCommand {ws : List (RegName × Nat)} {i : Instr} (hws : ∀ w ∈ ws, w.1 ≠ .cmd)
    (hi : i.wf = true) (s : State) :
    Host.Core.run Sys2Proof.core (ws.length + 1) (s.awaiting ((writesThenCommand ws i).map lineTxn)) =
      exec i (State.writeRegisters ws ((s.awaiting []).answer .done)) := by
  induction ws generalizing s with
  | nil =>
    have hexec := exec_eq_ending i ((s.awaiting []).answer .done)
    have hstep : step (s.awaiting ((writesThenCommand [] i).map lineTxn)) = exec i ((s.awaiting []).answer .done) :=
      (step_writeCmd rfl).trans (execute_of_decode (decode_encode hi) _)
    exact (run_succ_of_step (hstep.trans hexec) 0).trans hexec.symm
  | cons w ws ih =>
    obtain ⟨hw, hws⟩ := List.forall_mem_cons.mp hws
    have hfirst := run_succ_of_step
      (step_awaiting_writeReg hw (BitVec.ofNat 32 w.2) ((writesThenCommand ws i).map lineTxn) s) (ws.length + 1)
    have hwritten := writeRegister_awaiting_answer w.1 (BitVec.ofNat 32 w.2) [] .done s
    exact (hfirst.trans (ih hws _)).trans (congrArg (fun t => exec i (State.writeRegisters ws t)) hwritten.symm)

/-- A pseudo-instruction that expands to register writes and a command runs that command in the state with the
registers written. -/
theorem run_pseudo {p : Pseudo} {ws : List (RegName × Nat)} {i : Instr} (hp : expandPseudo p = writesThenCommand ws i)
    (hws : ∀ w ∈ ws, w.1 ≠ .cmd ∧ w.2 < 2 ^ 32) (hi : i.wf = true) (s : State) :
    ∃ q, s.loadProgram [.pseudo p] = some q ∧ Host.Core.run Sys2Proof.core (ws.length + 1) q =
      exec i (State.writeRegisters ws ((s.awaiting []).answer .done)) := by
  refine ⟨_, ?_, run_writesThenCommand (fun w hw => (hws w hw).1) hi s⟩
  have hlines : ∀ a ∈ expandLine (.pseudo p), a.wf = true := by
    rw [expandLine, hp, writesThenCommand]
    simp only [List.forall_mem_append, List.forall_mem_map, List.forall_mem_singleton]
    exact ⟨fun w hw => (AsmLine.wf_wr _ _).mpr (hws w hw).2, hi⟩
  rw [State.loadProgram, assemble_accepts hlines, expandLine, hp]
  rfl

/-- Settles O50: each expansion is register writes and a command. -/
theorem pseudoInstructionsExpand : Obligations.PseudoInstructionsExpand := by
  unfold Obligations.PseudoInstructionsExpand
  intro s a b ha hb
  refine ⟨run_pseudo (ws := [(.chrAddr, a), (.pixAddr, b), (.cap, 64)]) rfl (by simpa using ⟨ha, hb⟩) rfl s,
    run_pseudo (ws := [(.pixAddr, a), (.chrAddr, b), (.cap, 16)]) rfl (by simpa using ⟨ha, hb⟩) rfl s,
    run_pseudo (ws := [(.chrAddr, a), (.pixAddr, b), (.len, 32), (.cap, 128)]) rfl (by simpa using ⟨ha, hb⟩) rfl s,
    run_pseudo (ws := [(.pixAddr, a), (.chrAddr, b), (.len, 128), (.cap, 32)]) rfl (by simpa using ⟨ha, hb⟩) rfl s,
    fun hidx => ?_⟩
  have hcolor : (BitVec.ofNat 32 b).setWidth 24 = BitVec.ofNat 24 b := BitVec.setWidth_ofNat_of_le (by decide) b
  rw [← hcolor]
  exact run_pseudo (ws := [(.color, b)]) rfl (by simpa using hb) ((wf_pset a).mpr hidx) s

end Sys2Proof.Machine
end

section
/-! SUPPORT. What the codec commands leave, said once for any number of tiles: a DECT or an ENCT is the command of a
buffer of one tile, so each law below is about n tiles (40_tile_codec.md R104 to R107, 20_memory.md R55, R57). -/

namespace Sys2Proof.Machine

/-! ## The commands under their conditions -/

/-- DECT under its conditions (R104). -/
theorem exec_dect_of_ready {s : State} (h : s.DectReady) : exec .dect s = .next (commandDone .dect s) :=
  exec_of_commandError_none (firstError_eq_none.mpr ⟨trivial, h.cap, h.chr, h.pix⟩)

/-- ENCT under its conditions (R105). -/
theorem exec_enct_of_ready {s : State} (h : s.EnctReady) : exec .enct s = .next (commandDone .enct s) :=
  exec_of_commandError_none (firstError_eq_none.mpr ⟨trivial, h.cap, h.pix, h.chr⟩)

/-- ENCB under its conditions (R107). -/
theorem exec_encb_of_ready {s : State} (h : s.EncbReady) : exec .encb s = .next (commandDone .encb s) :=
  exec_of_commandError_none (firstError_eq_none.mpr ⟨h.len, h.cap, h.pix, h.chr⟩)

/-- A command that ends with CODE = 0 passed its checks and had its effect (60_exceptions.md R159). -/
theorem exec_success {i : Instr} {s t : State} (h : exec i s = .next t) (hc : t.code = 0) :
    commandError i s = none ∧ t = commandDone i s := by
  obtain ⟨e, hok, -, rfl⟩ | hdone := exec_outcome h
  · exact absurd hc (toCode_ne_zero hok)
  · exact hdone

@[simp] theorem commandDone_chrAddr (i : Instr) (s : State) : (commandDone i s).chrAddr = s.chrAddr := by
  obtain ⟨m, n, p, h⟩ := commandEffect_frame i s
  simp [commandDone, h]

@[simp] theorem commandDone_chrBase (i : Instr) (s : State) : (commandDone i s).chrBase = s.chrBase :=
  congrArg BitVec.toNat (commandDone_chrAddr i s)

@[simp] theorem commandDone_pixBase (i : Instr) (s : State) : (commandDone i s).pixBase = s.pixBase :=
  congrArg BitVec.toNat (commandDone_pixAddr i s)

/-- RESULT and STATUS are no bytes of a space. -/
theorem commandDone_memRead (i : Instr) (s : State) : (commandDone i s).memRead = (commandEffect i s).memRead := by
  rw [commandDone, succeed_memRead, setResult_memRead]

/-- DECT's effect is that of a buffer of one tile (R106). -/
theorem commandEffect_dect (s : State) : commandEffect .dect s = decodeTiles 1 s.chrBase s.pixBase s :=
  (decodeTiles_one _ _ s).symm

/-- ENCT's effect is that of a buffer of one tile (R107). -/
theorem commandEffect_enct (s : State) : commandEffect .enct s = encodeTiles 1 s.pixBase s.chrBase s :=
  (encodeTiles_one _ _ s).symm

/-! ## Decoding n tiles -/

/-- A command that decodes n tiles changes PIX, RESULT and CODE and nothing else. -/
theorem commandDone_of_decode {i : Instr} {s : State} {n c p : Nat} (h : commandEffect i s = decodeTiles n c p s) :
    commandDone i s = { s with pix := (commandDone i s).pix, result := (commandDone i s).result, code := 0 } := by
  obtain ⟨m, hm⟩ := decodeTiles_frame n c p s
  rw [commandDone, h, hm]
  rfl

/-- Pixel (x, y) of tile k is the colour index of row y of that tile's plane bytes (R100, R102). -/
theorem toNat_pixel_of_decode {i : Instr} {s : State} {n c p : Nat} (h : commandEffect i s = decodeTiles n c p s)
    {k x y : Nat} (hk : k < n) (hx : x < 8) (hy : y < 8) :
    ((commandDone i s).memRead .pix (p + 64 * k + y * 8 + x)).toNat =
      colourIndex (s.memRead .chr (c + 16 * k + y)) (s.memRead .chr (c + 16 * k + 8 + y)) x := by
  have hplace : p + 64 * k + y * 8 + x = p + pixOffset x (8 * k + y) := by unfold pixOffset; omega
  have htile : (8 * k + y) / 8 = k := by omega
  have hrow : (8 * k + y) % 8 = y := by omega
  rw [commandDone_memRead, h, hplace, toNat_memRead_decodeTiles s n c p hx (by omega), htile, hrow]

/-- Decoding n tiles leaves every byte outside the pixel buffer (R106). -/
theorem memRead_of_decode {i : Instr} {s : State} {n c p : Nat} (h : commandEffect i s = decodeTiles n c p s)
    {sp : Space} {a : Nat} (ha : ¬ (sp = .pix ∧ inSpan p (64 * n) a)) :
    (commandDone i s).memRead sp a = s.memRead sp a := by
  rw [commandDone_memRead, h, memRead_decodeTiles, if_neg ha]

/-! ## Encoding n tiles -/

/-- A command that encodes n tiles changes CHR, RESULT and CODE and nothing else. -/
theorem commandDone_of_encode {i : Instr} {s : State} {n c p : Nat} (h : commandEffect i s = encodeTiles n p c s) :
    commandDone i s = { s with chr := (commandDone i s).chr, result := (commandDone i s).result, code := 0 } := by
  obtain ⟨m, hm⟩ := encodeTiles_frame n p c s
  rw [commandDone, h, hm]
  rfl

/-- Bit 7-x of byte j of a packed tile is bit 0 (plane 1) or bit 1 (plane 2) of the pixel in column x of row j mod 8
(R101, R103). -/
theorem tileByte_getLsbD (s : State) (p : Nat) {j x : Nat} (hj : j < 16) (hx : x < 8) :
    (tileByte s p j).getLsbD (7 - x) = (s.memRead .pix (p + j % 8 * 8 + x)).getLsbD (j / 8) := by
  have hplanes (row : Nat) := muxRow_getLsbD (fun k => s.memRead .pix (p + row * 8 + k)) hx
  unfold tileByte
  split
  · obtain ⟨hrow, hplane⟩ : j % 8 = j ∧ j / 8 = 0 := by omega
    rw [hrow, hplane]
    exact (hplanes j).1
  · obtain ⟨hrow, hplane⟩ : j % 8 = j - 8 ∧ j / 8 = 1 := by omega
    rw [hrow, hplane]
    exact (hplanes (j - 8)).2

/-- Byte j of packed tile k, bit by bit. -/
theorem getLsbD_of_encode {i : Instr} {s : State} {n c p : Nat} (h : commandEffect i s = encodeTiles n p c s)
    {k j x : Nat} (hk : k < n) (hj : j < 16) (hx : x < 8) :
    ((commandDone i s).memRead .chr (c + 16 * k + j)).getLsbD (7 - x) =
      (s.memRead .pix (p + 64 * k + j % 8 * 8 + x)).getLsbD (j / 8) := by
  have htile : (c + 16 * k + j - c) / 16 = k := by omega
  have hbyte : (c + 16 * k + j - c) % 16 = j := by omega
  rw [commandDone_memRead, h, memRead_encodeTiles, if_pos ⟨rfl, by omega, by omega⟩, htile, hbyte,
    tileByte_getLsbD s _ hj hx]

/-- Bit 7-x of row y's two plane bytes is bits 0 and 1 of pixel (x, y) of tile k (R101, R103). -/
theorem planes_of_encode {i : Instr} {s : State} {n c p : Nat} (h : commandEffect i s = encodeTiles n p c s)
    {k x y : Nat} (hk : k < n) (hx : x < 8) (hy : y < 8) :
    ((commandDone i s).memRead .chr (c + 16 * k + y)).getLsbD (7 - x) =
      (s.memRead .pix (p + 64 * k + y * 8 + x)).getLsbD 0 ∧
    ((commandDone i s).memRead .chr (c + 16 * k + 8 + y)).getLsbD (7 - x) =
      (s.memRead .pix (p + 64 * k + y * 8 + x)).getLsbD 1 := by
  constructor
  · obtain ⟨hrow, hplane⟩ : y % 8 = y ∧ y / 8 = 0 := by omega
    rw [getLsbD_of_encode h hk (by omega) hx, hrow, hplane]
  · obtain ⟨hrow, hplane⟩ : (8 + y) % 8 = y ∧ (8 + y) / 8 = 1 := by omega
    rw [Nat.add_assoc, getLsbD_of_encode h hk (by omega) hx, hrow, hplane]

/-- Encoding n tiles leaves every byte outside the packed tiles (R107). -/
theorem memRead_of_encode {i : Instr} {s : State} {n c p : Nat} (h : commandEffect i s = encodeTiles n p c s)
    {sp : Space} {a : Nat} (ha : ¬ (sp = .chr ∧ inSpan c (16 * n) a)) :
    (commandDone i s).memRead sp a = s.memRead sp a := by
  rw [commandDone_memRead, h, memRead_encodeTiles, if_neg ha]

end Sys2Proof.Machine
end

section
/-! PROOFS of O21, O22, O23 and O24: each codec command is n tiles decoded or encoded, n = 1 for DECT and ENCT. -/

namespace Sys2Proof.Machine

/-- Settles O21: one tile decoded. -/
theorem dectDecodesTile : Obligations.DectDecodesTile := by
  unfold Obligations.DectDecodesTile
  intro s hs
  have heff := commandEffect_dect s
  refine ⟨commandDone .dect s, exec_dect_of_ready hs, commandDone_of_decode heff, fun x y hx hy => ?_,
    fun sp a ha => memRead_of_decode heff ha⟩
  simpa using toNat_pixel_of_decode heff Nat.zero_lt_one hx hy

/-- Settles O22: one tile encoded. -/
theorem enctEncodesTile : Obligations.EnctEncodesTile := by
  unfold Obligations.EnctEncodesTile
  intro s hs
  have heff := commandEffect_enct s
  refine ⟨commandDone .enct s, exec_enct_of_ready hs, commandDone_of_encode heff, fun x y hx hy => ?_,
    fun sp a ha => memRead_of_encode heff ha⟩
  simpa using planes_of_encode heff Nat.zero_lt_one hx hy

/-- Settles O23: LEN/16 tiles decoded, so the pixel buffer is LEN*4 bytes. -/
theorem decbDecodesBuffer : Obligations.DecbDecodesBuffer := by
  unfold Obligations.DecbDecodesBuffer
  intro s hs
  have hexec := exec_decb_of_ready hs
  have hspan : s.len.toNat * 4 = 64 * (s.len.toNat / 16) := by have := hs.len; omega
  refine ⟨_, hexec, commandDone_of_decode (i := .decb) rfl, exec_result hexec rfl,
    fun k x y => toNat_pixel_of_decode (i := .decb) rfl, ?_⟩
  rw [hspan]
  exact fun sp a => memRead_of_decode (i := .decb) rfl

/-- Settles O24: LEN/64 tiles encoded, so the packed tiles are LEN/4 bytes. -/
theorem encbEncodesBuffer : Obligations.EncbEncodesBuffer := by
  unfold Obligations.EncbEncodesBuffer
  intro s hs
  have hexec := exec_encb_of_ready hs
  have hspan : s.len.toNat / 4 = 16 * (s.len.toNat / 64) := by have := hs.len; omega
  refine ⟨_, hexec, commandDone_of_encode (i := .encb) rfl, exec_result hexec rfl,
    fun k x y => planes_of_encode (i := .encb) rfl, ?_⟩
  rw [hspan]
  exact fun sp a => memRead_of_encode (i := .encb) rfl

end Sys2Proof.Machine
end

section
/-! PROOF of O25. A buffer command lists every byte of its destination span with the value its tile gives it, whatever
was listed before, and lists no other byte anew (R109). -/

namespace Sys2Proof.Machine

/-- Every pixel byte of n decoded tiles is listed, with the colour index of its place. -/
theorem decodeTiles_lists (s : State) (n c p : Nat) {a : Nat} (ha : inSpan p (64 * n) a) :
    ∃ b : Byte, (decodeTiles n c p s).pix.lookup a = some b ∧ b.toNat = colourIndex
      (s.memRead .chr (c + 16 * ((a - p) / 64) + (a - p) % 64 / 8))
      (s.memRead .chr (c + 16 * ((a - p) / 64) + 8 + (a - p) % 64 / 8)) ((a - p) % 8) := by
  have hcol : (a - p) % 64 % 8 = (a - p) % 8 := by omega
  refine ⟨_, (lookup_decodeTiles s n c p .pix a).trans (if_pos ⟨rfl, ha⟩), ?_⟩
  rw [tilePixel, demuxPixel_toNat, hcol]

/-- Every byte of n encoded tiles is listed, with the plane byte of its place. -/
theorem encodeTiles_lists (s : State) (n p c : Nat) {a : Nat} (ha : inSpan c (16 * n) a) :
    ∃ b : Byte, (encodeTiles n p c s).chr.lookup a = some b ∧ ∀ x < 8, b.getLsbD (7 - x) =
      (s.memRead .pix (p + 64 * ((a - c) / 16) + (a - c) % 8 * 8 + x)).getLsbD ((a - c) % 16 / 8) := by
  have hrow : (a - c) % 16 % 8 = (a - c) % 8 := by omega
  refine ⟨_, (lookup_encodeTiles s n p c .chr a).trans (if_pos ⟨rfl, ha⟩), fun x hx => ?_⟩
  rw [tileByte_getLsbD s _ (Nat.mod_lt _ (by decide)) hx, hrow]

/-- Settles O25: the span of the tiles is LEN*4 bytes of PIX for DECB, LEN/4 bytes of CHR for ENCB. -/
theorem lengthLaws : Obligations.LengthLaws := by
  unfold Obligations.LengthLaws
  constructor
  · intro s t h hc
    obtain ⟨hready, rfl⟩ := exec_success h hc
    obtain ⟨hlen, -⟩ := firstError_eq_none.mp hready
    have hspan : s.len.toNat * 4 = 64 * (s.srcLen / 16) := by unfold State.srcLen at hlen ⊢; omega
    refine ⟨hlen, exec_result h hc, ?_⟩
    rw [hspan]
    exact ⟨fun a ha => decodeTiles_lists s _ _ _ ha,
      fun a ha => (lookup_decodeTiles s _ _ _ .pix a).trans (if_neg fun h => ha h.2)⟩
  · intro s t h hc
    obtain ⟨hready, rfl⟩ := exec_success h hc
    obtain ⟨hlen, -⟩ := firstError_eq_none.mp hready
    have hspan : s.len.toNat / 4 = 16 * (s.srcLen / 64) := by unfold State.srcLen at hlen ⊢; omega
    refine ⟨hlen, exec_result h hc, ?_⟩
    rw [hspan]
    exact ⟨fun a ha => encodeTiles_lists s _ _ _ ha,
      fun a ha => (lookup_encodeTiles s _ _ _ .chr a).trans (if_neg fun h => ha h.2)⟩

end Sys2Proof.Machine
end

section
/-! PROOF of O26. With the LEN of one tile a buffer command makes the checks of the tile command, has its effect and
gives its RESULT (R106, R107). -/

namespace Sys2Proof.Machine

/-- Two commands with the same first error, effect and result end alike. -/
theorem exec_congr {i j : Instr} {s : State} (herror : commandError i s = commandError j s)
    (heffect : commandEffect i s = commandEffect j s) (hresult : commandResult i s = commandResult j s) :
    exec i s = exec j s := by
  rw [exec_eq_ending, exec_eq_ending, commandDone, commandDone, herror, heffect, hresult]

/-- Settles O26: a buffer of one tile is a tile, in its checks too. -/
theorem oneTileBufferIsTile : Obligations.OneTileBufferIsTile := by
  unfold Obligations.OneTileBufferIsTile
  refine ⟨fun s hlen => ?_, fun s hlen => ?_⟩
  · have hlen : s.srcLen = 16 := congrArg BitVec.toNat hlen
    refine exec_congr ?_ ?_ ?_
    · simp [commandError, hlen]
    · rw [commandEffect_dect, commandEffect, hlen]
    · exact congrArg (· * 4) hlen
  · have hlen : s.srcLen = 64 := congrArg BitVec.toNat hlen
    refine exec_congr ?_ ?_ ?_
    · simp [commandError, hlen]
    · rw [commandEffect_enct, commandEffect, hlen]
    · exact congrArg (· / 4) hlen

end Sys2Proof.Machine
end

section
/-! PROOFS of O27 and O28. The round trips of n tiles (R108), for commands that run one after the other on the same
operands: n = 1 for DECT and ENCT; for DECB and ENCB, LEN is rewritten between them (70_reset_and_hazards.md R186). -/

namespace Sys2Proof.Machine

/-! ## The operands of n tiles -/

/-- The destination capacity and both spans hold n tiles, packed and unpacked. -/
structure State.HoldsTiles (s : State) (n : Nat) : Prop where
  cap : 64 * n ≤ s.cap.toNat
  chr : s.chrAddr.toNat + 16 * n ≤ s.chrSize
  pix : s.pixAddr.toNat + 64 * n ≤ s.pixSize

/-- The state after the host has written LEN (10_state.md R25). -/
def State.withLen (s : State) (l : Nat) : State := State.writeRegister .len (BitVec.ofNat 32 l) s

@[simp] theorem withLen_chrBase (s : State) (l : Nat) : (s.withLen l).chrBase = s.chrBase := rfl

@[simp] theorem withLen_pixBase (s : State) (l : Nat) : (s.withLen l).pixBase = s.pixBase := rfl

@[simp] theorem withLen_memRead (s : State) (l : Nat) : (s.withLen l).memRead = s.memRead :=
  writeRegister_memRead s .len _

theorem toNat_withLen_len (s : State) {l : Nat} (hl : l < 2 ^ 32) : (s.withLen l).len.toNat = l :=
  Nat.mod_eq_of_lt hl

namespace State.HoldsTiles

variable {s : State} {n : Nat}

theorem withLen (h : s.HoldsTiles n) (l : Nat) : (s.withLen l).HoldsTiles n := ⟨h.cap, h.chr, h.pix⟩

/-- A command leaves the operands and the sizes. -/
theorem commandDone (h : s.HoldsTiles n) (i : Instr) : (commandDone i s).HoldsTiles n where
  cap := by rw [commandDone_cap]; exact h.cap
  chr := by rw [commandDone_chrAddr, commandDone_chrSize]; exact h.chr
  pix := by rw [commandDone_pixAddr, commandDone_pixSize]; exact h.pix

theorem dect (h : s.HoldsTiles 1) : s.DectReady := ⟨h.cap, h.chr, h.pix⟩

theorem enct (h : s.HoldsTiles 1) : s.EnctReady := ⟨le_trans (by decide) h.cap, h.pix, h.chr⟩

/-- The length in bytes of n unpacked tiles fits LEN. -/
theorem unpacked_lt (h : s.HoldsTiles n) : 64 * n < 2 ^ 32 := h.cap.trans_lt s.cap.isLt

theorem len_packed (h : s.HoldsTiles n) : (s.withLen (16 * n)).len.toNat = 16 * n :=
  toNat_withLen_len s (by have := h.unpacked_lt; omega)

theorem len_unpacked (h : s.HoldsTiles n) : (s.withLen (64 * n)).len.toNat = 64 * n :=
  toNat_withLen_len s h.unpacked_lt

/-- With LEN = 16*n the conditions of DECB hold (R106). -/
theorem decb (h : s.HoldsTiles n) : (s.withLen (16 * n)).DecbReady := by
  constructor <;> rw [h.len_packed]
  · exact Nat.mul_mod_right 16 n
  · exact le_trans (by omega) h.cap
  · exact h.chr
  · rw [Nat.mul_right_comm]
    exact h.pix

/-- With LEN = 64*n the conditions of ENCB hold (R107). -/
theorem encb (h : s.HoldsTiles n) : (s.withLen (64 * n)).EncbReady := by
  have hquarter : 64 * n / 4 = 16 * n := by omega
  constructor <;> rw [h.len_unpacked]
  · exact Nat.mul_mod_right 64 n
  · exact le_trans (by omega) h.cap
  · exact h.pix
  · rw [hquarter]
    exact h.chr

/-- DECB of LEN = 16*n decodes n tiles. -/
theorem commandEffect_decb (h : s.HoldsTiles n) : commandEffect .decb (s.withLen (16 * n)) =
    decodeTiles n s.chrBase s.pixBase (s.withLen (16 * n)) := by
  rw [commandEffect, State.srcLen, h.len_packed, Nat.mul_div_cancel_left n (by decide)]
  rfl

/-- ENCB of LEN = 64*n encodes n tiles. -/
theorem commandEffect_encb (h : s.HoldsTiles n) : commandEffect .encb (s.withLen (64 * n)) =
    encodeTiles n s.pixBase s.chrBase (s.withLen (64 * n)) := by
  rw [commandEffect, State.srcLen, h.len_unpacked, Nat.mul_div_cancel_left n (by decide)]
  rfl

end State.HoldsTiles

/-! ## Two commands in a row -/

section
variable {i j : Instr} {s t : State} {n c p : Nat}

/-- A command that decodes n tiles, and then one that encodes them where the bytes are as the first left them, give
every byte of CHR back (R108, first law). -/
theorem memRead_encode_after_decode (hi : commandEffect i s = decodeTiles n c p s)
    (ht : t.memRead = (commandDone i s).memRead) (hj : commandEffect j t = encodeTiles n p c t) (a : Nat) :
    (commandDone j t).memRead .chr a = s.memRead .chr a := by
  have ht : t.memRead = (decodeTiles n c p s).memRead := by rw [ht, commandDone_memRead, hi]
  rw [commandDone_memRead, hj, memRead_encodeTiles, tileByte_congr (congrFun ht .pix), ht, ← memRead_encodeTiles,
    encodeTiles_decodeTiles]

/-- A command that encodes n tiles, and then one that decodes them where the bytes are as the first left them, give
every byte of the pixel buffer its own bits 1:0, and leave the rest of PIX (R108, second law). -/
theorem memRead_decode_after_encode (hi : commandEffect i s = encodeTiles n p c s)
    (ht : t.memRead = (commandDone i s).memRead) (hj : commandEffect j t = decodeTiles n c p t) (a : Nat) :
    (commandDone j t).memRead .pix a =
      if inSpan p (64 * n) a then s.memRead .pix a &&& 3#8 else s.memRead .pix a := by
  have ht : t.memRead = (encodeTiles n p c s).memRead := by rw [ht, commandDone_memRead, hi]
  rw [commandDone_memRead, hj, memRead_decodeTiles, tilePixel_congr (congrFun ht .chr), ht, ← memRead_decodeTiles,
    decodeTiles_encodeTiles]

end

/-- Bytes that keep their own bits 1:0 in a span are as they were where the span is in [0, 3] (R108, third law). -/
theorem masked_span_laws {f g : Nat → Byte} {base n : Nat}
    (h : ∀ a, g a = if inSpan base n a then f a &&& 3#8 else f a) :
    (∀ a, inSpan base n a → g a = f a &&& 3#8) ∧
    ((∀ a, inSpan base n a → (f a).toNat ≤ 3) → ∀ a, g a = f a) := by
  refine ⟨fun a ha => (h a).trans (if_pos ha), fun hle a => (h a).trans ?_⟩
  split
  case isTrue ha => exact and_three_of_le (hle a ha)
  case isFalse => rfl

/-- Settles O27: the round trips of one tile. -/
theorem tileRoundTrip : Obligations.TileRoundTrip := by
  unfold Obligations.TileRoundTrip
  intro s hs
  have hs : s.HoldsTiles 1 := ⟨hs.cap, hs.chr, hs.pix⟩
  have henct := commandEffect_enct (commandDone .dect s)
  have hdect := commandEffect_dect (commandDone .enct s)
  rw [commandDone_chrBase, commandDone_pixBase] at henct hdect
  exact ⟨_, _, _, _, exec_dect_of_ready hs.dect, exec_enct_of_ready (hs.commandDone .dect).enct,
    memRead_encode_after_decode (commandEffect_dect s) rfl henct,
    exec_enct_of_ready hs.enct, exec_dect_of_ready (hs.commandDone .enct).dect,
    masked_span_laws (memRead_decode_after_encode (commandEffect_enct s) rfl hdect)⟩

/-- Settles O28: the round trips of n tiles, each command with its own LEN. -/
theorem bufferRoundTrip : Obligations.BufferRoundTrip := by
  unfold Obligations.BufferRoundTrip
  intro s n hcap hchr hpix
  have hs : s.HoldsTiles n := ⟨hcap, hchr, hpix⟩
  have ht := (hs.withLen (16 * n)).commandDone .decb
  have hv := (hs.withLen (64 * n)).commandDone .encb
  have hencb := ht.commandEffect_encb
  have hdecb := hv.commandEffect_decb
  rw [commandDone_chrBase, commandDone_pixBase] at hencb hdecb
  have hlaw := memRead_encode_after_decode hs.commandEffect_decb (withLen_memRead _ _) hencb
  have hlaws := masked_span_laws (memRead_decode_after_encode hs.commandEffect_encb (withLen_memRead _ _) hdecb)
  simp only [withLen_memRead] at hlaw hlaws
  exact ⟨_, _, _, _, exec_decb_of_ready hs.decb, exec_encb_of_ready ht.encb, hlaw, exec_encb_of_ready hs.encb,
    exec_decb_of_ready hv.decb, hlaws⟩

end Sys2Proof.Machine
end

section
/-! PROOF of O29. By O21 a decoded pixel is a function of one bit of each plane byte, and by O22 the encoded bits of a
column are two bits of one pixel, so no lane reads another (R110). -/

namespace Sys2Proof.Machine

/-- The colour index of a column reads one bit of each plane (20_memory.md R55). -/
theorem colourIndex_congr {p1 p2 q1 q2 : Byte} {x : Nat} (h1 : p1.getLsbD (7 - x) = q1.getLsbD (7 - x))
    (h2 : p2.getLsbD (7 - x) = q2.getLsbD (7 - x)) : colourIndex p1 p2 x = colourIndex q1 q2 x := by
  rw [colourIndex, colourIndex, h1, h2]

/-- Bytes with the same bits 1:0 agree on bit 0 and on bit 1. -/
theorem low_bits_of_and_three {p q : Byte} (h : p &&& 3#8 = q &&& 3#8) :
    p.getLsbD 0 = q.getLsbD 0 ∧ p.getLsbD 1 = q.getLsbD 1 :=
  ⟨by simpa using congrArg (·.getLsbD 0) h, by simpa using congrArg (·.getLsbD 1) h⟩

/-- Settles O29: the values of O21 and O22 read the lane's own bits. -/
theorem lanesAreIndependent : Obligations.LanesAreIndependent := by
  unfold Obligations.LanesAreIndependent
  constructor
  · intro s s' t t' x y hx hy hs hs' ht ht' h1 h2
    obtain ⟨_, hexec, -, hpixel, -⟩ := dectDecodesTile s hs
    obtain ⟨_, hexec', -, hpixel', -⟩ := dectDecodesTile s' hs'
    cases hexec.symm.trans ht
    cases hexec'.symm.trans ht'
    apply BitVec.eq_of_toNat_eq
    rw [hpixel x y hx hy, hpixel' x y hx hy, colourIndex_congr h1 h2]
  · intro s s' t t' x y hx hy hs hs' ht ht' hq
    obtain ⟨_, hexec, -, hplanes, -⟩ := enctEncodesTile s hs
    obtain ⟨_, hexec', -, hplanes', -⟩ := enctEncodesTile s' hs'
    cases hexec.symm.trans ht
    cases hexec'.symm.trans ht'
    obtain ⟨h1, h2⟩ := hplanes x y hx hy
    obtain ⟨h1', h2'⟩ := hplanes' x y hx hy
    obtain ⟨hbit0, hbit1⟩ := low_bits_of_and_three hq
    rw [h1, h2, h1', h2']
    exact ⟨hbit0, hbit1⟩

end Sys2Proof.Machine
end

section
/-! PROOFS of O31, O32 and O33. SETPX is one byte write of PIX and GETPX one byte read of it, at the same place (R130);
a command leaves what their checks read, so where SETPX succeeds the GETPX that follows does too (R133). -/

namespace Sys2Proof.Machine

/-- SETPX under its conditions (41_pixel_access.md R131). -/
theorem exec_setpx_of_ready {s : State} {x y : Nat} (h : s.PixelReady x y) (v : Nat) :
    exec (.setpx x y v) s = .next (commandDone (.setpx x y v) s) :=
  exec_of_commandError_none (firstError_eq_none.mpr ⟨trivial, h.cap, h.pix⟩)

/-- A SETPX that succeeds met its conditions (R131). -/
theorem pixelReady_of_setpx {s : State} {x y v : Nat} (h : commandError (.setpx x y v) s = none) :
    s.PixelReady x y := by
  obtain ⟨-, hcap, hpix⟩ := firstError_eq_none.mp h
  exact ⟨hcap, hpix⟩

/-- A command leaves CAP, PIX_ADDR and the size of PIX, so it leaves the conditions of a pixel command. -/
theorem State.PixelReady.commandDone {s : State} {x y : Nat} (h : s.PixelReady x y) (i : Instr) :
    (commandDone i s).PixelReady x y where
  cap := by rw [commandDone_cap]; exact h.cap
  pix := by rw [commandDone_pixAddr, commandDone_pixSize]; exact h.pix

/-- Every byte after SETPX: V at the pixel's place, and as before elsewhere (R131). -/
theorem commandDone_setpx_memRead (s : State) (x y v : Nat) (sp : Space) (a : Nat) :
    (commandDone (.setpx x y v) s).memRead sp a =
      if sp = .pix ∧ a = s.pixBase + pixOffset x y then BitVec.ofNat 8 v else s.memRead sp a := by
  rw [commandDone_memRead, commandEffect, memRead_memWrite]

/-- Settles O31: one byte write. -/
theorem setpxStoresPixel : Obligations.SetpxStoresPixel := by
  unfold Obligations.SetpxStoresPixel
  intro s x y v hs
  exact ⟨_, exec_setpx_of_ready hs v, rfl, (commandDone_setpx_memRead s x y v _ _).trans (if_pos ⟨rfl, rfl⟩),
    fun sp a ha => (commandDone_setpx_memRead s x y v sp a).trans (if_neg ha)⟩

/-- Settles O32: one byte read, whose value fits RESULT. -/
theorem getpxReturnsPixel : Obligations.GetpxReturnsPixel := by
  unfold Obligations.GetpxReturnsPixel
  intro s x y hs
  have hexec := exec_getpx_of_ready hs
  exact ⟨_, hexec, rfl, exec_result hexec rfl, fun sp a => congrFun₂ (commandDone_memRead (.getpx x y) s) sp a⟩

/-- Settles O33: GETPX reads the byte that SETPX wrote. -/
theorem setThenGetReturnsValue : Obligations.SetThenGetReturnsValue := by
  unfold Obligations.SetThenGetReturnsValue
  intro s t x y v hv h hc
  obtain ⟨hnone, rfl⟩ := exec_success h hc
  have hget := exec_getpx_of_ready ((pixelReady_of_setpx hnone).commandDone (.setpx x y v))
  refine ⟨_, hget, rfl, ?_⟩
  rw [exec_result hget rfl, commandResult, commandDone_pixBase, commandDone_setpx_memRead, if_pos ⟨rfl, rfl⟩]
  exact Nat.mod_eq_of_lt hv

end Sys2Proof.Machine
end

section
/-! PROOFS of O34, O35 and O36. A palette command checks nothing, so it always completes with its effect and its value
(42_palette.md R140 to R142). -/

namespace Sys2Proof.Machine

/-- What an index reads is the entry of its low two bits (10_state.md R31). -/
theorem palRead_eq_getElem (s : State) {idx : Nat} {j : Fin 4} (h : j.val = idx % 4) : s.palRead idx = s.pal[j] := by
  have hj : palIndex idx = j := Fin.ext h.symm
  exact congrArg (fun k : Fin 4 => s.pal[k]) hj

/-- Indices that agree in their low two bits read the same entry (10_state.md R31). -/
theorem palRead_of_mod_eq (s : State) {i j : Nat} (h : j % 4 = i % 4) : s.palRead j = s.palRead i :=
  (palRead_eq_getElem s (j := palIndex i) h.symm).trans (palRead_eq_getElem s rfl).symm

/-- Every entry after PSET: COLOR at the indices of its entry, and as before elsewhere (R141). -/
theorem commandDone_pset_palRead (s : State) (idx j : Nat) :
    (commandDone (.pset idx) s).palRead j = if j % 4 = idx % 4 then s.color else s.palRead j :=
  palRead_palWrite s idx j s.color

/-- The state in which PINIT succeeds, its loop done (R140). -/
theorem commandDone_pinit (s : State) : commandDone .pinit s =
    { s with pal := #v[Config.palDefault, Config.palDefault, Config.palDefault, Config.palDefault],
             result := 0, code := 0 } := by
  rw [commandDone, commandEffect, pinit_pal]
  rfl

/-- Settles O34: PINIT leaves the same colour in the four entries. -/
theorem pinitFillsPalette : Obligations.PinitFillsPalette := by
  unfold Obligations.PinitFillsPalette
  intro s
  have hexec : exec .pinit s = .next (commandDone .pinit s) := exec_of_commandError_none rfl
  rw [commandDone_pinit] at hexec
  exact ⟨_, hexec, rfl, palRead_uniform rfl, fun _ _ => rfl⟩

/-- Settles O35: PSET is one palette write. -/
theorem psetStoresColour : Obligations.PsetStoresColour := by
  unfold Obligations.PsetStoresColour
  intro s idx
  refine ⟨_, exec_of_commandError_none rfl, rfl, fun j => ?_, fun sp a => ?_⟩
  · have hj : j.val = j.val % 4 := (Nat.mod_eq_of_lt j.isLt).symm
    rw [← palRead_eq_getElem _ hj, ← palRead_eq_getElem _ hj, commandDone_pset_palRead, ← hj]
  · rw [commandDone_memRead, commandEffect, palWrite_memRead]

/-- Settles O36: PGET is one palette read, whose value fits RESULT. -/
theorem pgetReturnsColour : Obligations.PgetReturnsColour := by
  unfold Obligations.PgetReturnsColour
  intro s idx
  have hexec : exec (.pget idx) s = .next (commandDone (.pget idx) s) := exec_of_commandError_none rfl
  refine ⟨_, hexec, rfl, fun j hj => ?_, fun sp a => congrFun₂ (commandDone_memRead (.pget idx) s) sp a⟩
  rw [exec_result hexec rfl, commandResult, palRead_eq_getElem s hj]

end Sys2Proof.Machine
end

section
/-! PROOF of O39. A change of the palette goes through the codec's loops, which only read and write bytes, and a change
of the spaces and of the operands that address them goes through the palette's reads and writes (42_palette.md R144). -/

namespace Sys2Proof.Machine

/-- A change of the state that leaves a command's error and goes through its success goes through the command, an error
being written to STATUS alone (60_exceptions.md R158, R159). -/
theorem exec_mapNext_of_commandDone {i : Instr} {f : State → State} {s : State}
    (herror : commandError i (f s) = commandError i s) (hraise : ∀ e, raise e (f s) = f (raise e s))
    (hdone : commandDone i (f s) = f (commandDone i s)) : exec i (f s) = mapNext f (exec i s) := by
  rw [exec_eq_ending, exec_eq_ending, herror, hdone]
  cases commandError i s with
  | some e => exact congrArg _ (hraise e)
  | none => rfl

/-- The state with another palette. -/
def State.withPal (p : Vector Color 4) (s : State) : State := { s with pal := p }

@[simp] theorem withPal_memRead (s : State) (p : Vector Color 4) : (s.withPal p).memRead = s.memRead := rfl

@[simp] theorem memWrite_withPal (s : State) (p : Vector Color 4) (sp : Space) (a : Nat) (v : Byte) :
    State.memWrite sp a v (s.withPal p) = (State.memWrite sp a v s).withPal p := by
  cases sp <;> rfl

theorem decodeTileAt_withPal (c p : Nat) (s : State) (q : Vector Color 4) :
    decodeTileAt c p (s.withPal q) = (decodeTileAt c p s).withPal q := by
  refine forUpTo_comm (f := State.withPal q) (fun row t => ?_) s
  simp only [decodeRow, withPal_memRead]
  exact forUpTo_comm (f := State.withPal q) (fun _ u => memWrite_withPal u q _ _ _) t

theorem encodeTileAt_withPal (p c : Nat) (s : State) (q : Vector Color 4) :
    encodeTileAt p c (s.withPal q) = (encodeTileAt p c s).withPal q := by
  refine forUpTo_comm (f := State.withPal q) (fun row t => ?_) s
  simp only [encodeRow, readRow, withPal_memRead, memWrite_withPal]

/-- No command checks the palette. -/
theorem commandError_withPal (i : Instr) (s : State) (p : Vector Color 4) :
    commandError i (s.withPal p) = commandError i s := by
  cases i <;> rfl

/-- With another palette a command other than PGET gives the same value (R144). -/
theorem commandResult_withPal {i : Instr} (s : State) (p : Vector Color 4) (hpget : ∀ k, i ≠ .pget k) :
    commandResult i (s.withPal p) = commandResult i s := by
  cases i with
  | pget k => exact absurd rfl (hpget k)
  | dect | enct | decb | encb | setpx | getpx | pinit | pset => rfl

/-- With another palette a command other than PINIT and PSET writes the same bytes (R144). -/
theorem commandEffect_withPal {i : Instr} (s : State) (p : Vector Color 4) (hpset : ∀ k, i ≠ .pset k)
    (hpinit : i ≠ .pinit) : commandEffect i (s.withPal p) = (commandEffect i s).withPal p := by
  cases i with
  | dect => exact decodeTileAt_withPal _ _ s p
  | enct => exact encodeTileAt_withPal _ _ s p
  | decb => exact forUpTo_comm (f := State.withPal p) (fun _ t => decodeTileAt_withPal _ _ t p) s
  | encb => exact forUpTo_comm (f := State.withPal p) (fun _ t => encodeTileAt_withPal _ _ t p) s
  | setpx | getpx | pget => rfl
  | pinit => exact absurd rfl hpinit
  | pset k => exact absurd rfl (hpset k)

/-- The state with other bytes in the spaces and other values in the registers that address and measure them. -/
def State.withMemory (chr pix : Memory) (chrAddr pixAddr len cap : Word) (s : State) : State :=
  { s with chr := chr, pix := pix, chrAddr := chrAddr, pixAddr := pixAddr, len := len, cap := cap }

/-- Settles O39: each change goes through the commands that do not read what it changes. -/
theorem paletteAndCodecAreSeparate : Obligations.PaletteAndCodecAreSeparate := by
  unfold Obligations.PaletteAndCodecAreSeparate
  refine ⟨fun i s p hpset hpget hpinit => ?codec, fun i s m n a b l k hi => ?palette⟩
  case codec =>
    refine exec_mapNext_of_commandDone (f := State.withPal p) (commandError_withPal i s p) (fun _ => rfl) ?_
    rw [commandDone, commandEffect_withPal s p hpset hpinit, commandResult_withPal s p hpget]
    rfl
  case palette =>
    obtain rfl | ⟨idx, rfl | rfl⟩ := hi
    case inl =>
      refine exec_mapNext_of_commandDone (f := State.withMemory m n a b l k) rfl (fun _ => rfl) ?_
      rw [commandDone_pinit, commandDone_pinit]
      rfl
    all_goals exact exec_mapNext_of_commandDone (f := State.withMemory m n a b l k) rfl (fun _ => rfl) rfl

end Sys2Proof.Machine
end

section
/-! SUPPORT. Runs of legal transactions, said once: each of them completes, takes itself off the list and leaves the
sizes, so what each of them keeps the run keeps (70_reset_and_hazards.md R184, R189). -/

namespace Sys2Proof.Machine

@[simp] theorem commandDone_pending (i : Instr) (s : State) : (commandDone i s).pending = s.pending := by
  obtain ⟨m, n, p, h⟩ := commandEffect_frame i s
  simp [commandDone, h]

theorem State.size_congr {s t : State} (hchr : t.chrSize = s.chrSize) (hpix : t.pixSize = s.pixSize) :
    t.size = s.size := by
  funext sp
  cases sp with
  | chr => exact hchr
  | pix => exact hpix

@[simp] theorem commandDone_size (i : Instr) (s : State) : (commandDone i s).size = s.size :=
  State.size_congr (commandDone_chrSize i s) (commandDone_pixSize i s)

/-- A command word leaves the sizes and the transactions to come. -/
theorem execute_keeps {w : Word} {s t : State} (h : execute w s = .next t) :
    t.size = s.size ∧ t.pending = s.pending := by
  obtain ⟨e, -, -, rfl⟩ | ⟨i, -, -, rfl⟩ := execute_outcome h
  · exact ⟨raise_size s e, rfl⟩
  · exact ⟨commandDone_size i s, commandDone_pending i s⟩

/-- A host transaction leaves the sizes and the transactions to come (log 3, log 14). -/
theorem transact_keeps {acc : HostTxn} {s t : State} (h : transact acc s = .next t) :
    t.size = s.size ∧ t.pending = s.pending := by
  obtain ⟨w, -, hw⟩ | ⟨off, w, r, -, -, -, rfl⟩ | ⟨off, w, -, -, rfl⟩ | ⟨off, -, rfl⟩ | ⟨sp, a, v, -, -, rfl⟩ |
    ⟨sp, a, -, -, rfl⟩ | ⟨-, rfl⟩ := transact_cases h
  · simpa using execute_keeps hw
  all_goals simp

/-- Which transactions are legal depends on the sizes alone. -/
theorem HostTxn.Legal.congr {acc : HostTxn} {s t : State} (h : acc.Legal s) (hsize : t.size = s.size) :
    acc.Legal t := by
  cases acc with
  | writeByte sp a v => exact h.trans_eq (congrFun hsize sp).symm
  | readByte sp a => exact h.trans_eq (congrFun hsize sp).symm
  | writeReg | readReg | reset => exact h

/-- A transaction to which the spec gives a meaning completes (R184). -/
theorem transact_completes {acc : HostTxn} {s : State} (h : acc.Legal s) : ∃ t, transact acc s = .next t := by
  cases acc with
  | writeReg bytes off v =>
    obtain ⟨rfl, ha, hw⟩ := h
    rw [transact, atRegister_legal _ hw ha]
    exact writeAccess_completes _ _ _
  | readReg bytes off =>
    obtain ⟨rfl, ha, hw⟩ := h
    rw [transact, atRegister_legal _ hw ha]
    exact readAccess_completes _ _
  | writeByte sp a v => exact ⟨_, if_pos h⟩
  | readByte sp a => exact ⟨_, if_pos h⟩
  | reset => exact ⟨_, rfl⟩

/-- A step whose next transaction is legal runs it and leaves the sizes. -/
theorem step_legal {s : State} {acc : HostTxn} {rest : List HostTxn} (hp : s.pending = acc :: rest)
    (h : acc.Legal s) : ∃ t, step s = .next t ∧ t.pending = rest ∧ t.size = s.size := by
  obtain ⟨t, ht⟩ := transact_completes (h.congr (awaiting_size s rest))
  obtain ⟨hsize, hpending⟩ := transact_keeps ht
  exact ⟨t, (step_of_pending hp).trans ht, hpending, hsize.trans (awaiting_size s rest)⟩

/-- A run of legal transactions completes and leaves the sizes, and what each of them keeps, the run keeps. -/
theorem run_legal {P : State → Prop} {ts rest : List HostTxn} {s : State} (hp : s.pending = ts ++ rest)
    (hlegal : ∀ acc ∈ ts, acc.Legal s) (h0 : P s)
    (hP : ∀ acc ∈ ts, ∀ s t, s.pending.head? = some acc → step s = .next t → P s → P t) :
    ∃ u, (∀ k, Host.Core.run Sys2Proof.core (k + ts.length) s = Host.Core.run Sys2Proof.core k u) ∧
      u.pending = rest ∧ u.size = s.size ∧ P u := by
  induction ts generalizing s with
  | nil => exact ⟨s, fun _ => rfl, hp, rfl, h0⟩
  | cons acc ts ih =>
    obtain ⟨hacc, hts⟩ := List.forall_mem_cons.mp hlegal
    obtain ⟨hPacc, hPts⟩ := List.forall_mem_cons.mp hP
    obtain ⟨t, ht, hpt, hsize⟩ := step_legal hp hacc
    obtain ⟨u, hrun, hpu, hsizeu, hPu⟩ :=
      ih hpt (fun a ha => (hts a ha).congr hsize) (hPacc s t (by rw [hp]; rfl) ht h0) hPts
    exact ⟨u, fun k => (run_succ_of_step ht _).trans (hrun k), hpu, hsizeu.trans hsize, hPu⟩

end Sys2Proof.Machine
end

section
/-! PROOF of O37. The run is a store of the colour, transactions that keep the entry, and a read of the entry; by O38
every transaction that is not named a writer of the entry keeps it (42_palette.md R143). -/

namespace Sys2Proof.Machine

/-- A step that writes to CMD the word of a command that checks nothing has the command's effect. -/
theorem step_unchecked_command {s : State} {rest : List HostTxn} {i : Instr} (hwf : i.wf = true)
    (hcheck : ∀ t, commandError i t = none) (hp : s.pending = .writeReg 4 0x00 (encode i) :: rest) :
    step s = .next (commandDone i { s with pending := rest, reply := .done }) := by
  rw [step_writeCmd hp, execute_of_decode (decode_encode hwf), exec_of_commandError_none (hcheck _)]

/-- A write of COLOR and a PSET store the colour's 24 bits in the entry (R141). -/
theorem run_storeColour {s : State} {c : Word} {i : Nat} {rest : List HostTxn} (hi : i < 256)
    (hp : s.pending = .writeReg 4 0x18 c :: .writeReg 4 0x00 (encode (.pset i)) :: rest) :
    ∃ t, (∀ k, Host.Core.run Sys2Proof.core (k + 2) s = Host.Core.run Sys2Proof.core k t) ∧
      t.pending = rest ∧ t.size = s.size ∧ t.palRead i = c.setWidth 24 := by
  have hcolor := step_writeRegister .color (by decide) hp
  have hpset := step_unchecked_command ((wf_pset i).mpr hi) (fun _ => rfl) (s := State.writeRegister .color c
    { s with pending := .writeReg 4 0x00 (encode (.pset i)) :: rest, reply := .done }) rfl
  refine ⟨_, fun k => (run_succ_of_step hcolor (k + 1)).trans (run_succ_of_step hpset k), rfl,
    State.size_congr rfl rfl, ?_⟩
  rw [commandDone_pset_palRead, if_pos rfl]
  rfl

/-- A step whose transaction may not write an entry keeps it (10_state.md R32). -/
theorem step_palRead {s t : State} {acc : HostTxn} {idx : Nat} (h : step s = .next t)
    (hhead : s.pending.head? = some acc) (hacc : ¬ acc.MayWriteEntry idx) : t.palRead idx = s.palRead idx := by
  by_contra hne
  obtain ⟨acc', hhead', hacc'⟩ := paletteWritersAreNamed s t idx h hne
  cases hhead.symm.trans hhead'
  exact hacc hacc'

/-- A PGET that stands last ends the run with the entry in RESULT (R142). -/
theorem run_pget {s : State} {j : Nat} (hj : j < 256) (hp : s.pending = [.writeReg 4 0x00 (encode (.pget j))]) :
    ∃ u, Host.Core.run Sys2Proof.core 1 s = .next u ∧ u.code = 0 ∧ u.result.toNat = (s.palRead j).toNat := by
  have hpget := step_unchecked_command ((wf_pget j).mpr hj) (fun _ => rfl) hp
  exact ⟨_, run_succ_of_step hpget 0, rfl, exec_result (exec_of_commandError_none rfl) rfl⟩

/-- Settles O37: the store, the transactions between and the read, one after another. -/
theorem paletteWrapLaw : Obligations.PaletteWrapLaw := by
  unfold Obligations.PaletteWrapLaw
  intro s c i j between hi hj hij hbetween
  obtain ⟨t, hstore, hpt, hsize, hpal⟩ := run_storeColour
    (s := s.awaiting (.writeReg 4 0x18 c :: .writeReg 4 0x00 (encode (.pset i)) ::
      (between ++ [.writeReg 4 0x00 (encode (.pget j))]))) hi rfl
  obtain ⟨u, hrun, hpu, -, hpalu⟩ := run_legal (P := fun v => v.palRead i = c.setWidth 24) hpt
    (fun acc hacc => (hbetween acc hacc).1.congr (hsize.trans (awaiting_size s _))) hpal
    (fun acc hacc v w hhead hstep hv => (step_palRead hstep hhead (hbetween acc hacc).2).trans hv)
  obtain ⟨v, hget, hcode, hresult⟩ := run_pget hj hpu
  refine ⟨v, ?_, hcode, ?_⟩
  · calc Host.Core.run Sys2Proof.core (between.length + 3) _
      _ = Host.Core.run Sys2Proof.core (between.length + 1) t := hstore (between.length + 1)
      _ = Host.Core.run Sys2Proof.core 1 u := by rw [Nat.add_comm]; exact hrun 1
      _ = .next v := hget
  · rw [hresult, palRead_of_mod_eq u hij, hpalu, BitVec.toNat_setWidth]

end Sys2Proof.Machine
end

section
/-! PROOFS of O40, O41, O42 and O43. A command ends with the code of the first check that fails (60_exceptions.md R157),
or with 0; what it leaves in STATUS and everywhere else follows from whether it raised an error (R158) or succeeded
(R159). -/

namespace Sys2Proof.Machine

/-! ## The first error -/

/-- A command leaves the code of its error, and the code of success where it has none. -/
theorem exec_code {i : Instr} {s t : State} (h : exec i s = .next t) :
    t.code = ((commandError i s).getD .ok).toCode := by
  rw [exec_eq_ending] at h
  cases h
  cases commandError i s <;> rfl

/-- The codes of the three checks, in the order of R157. -/
theorem toCode_firstError (l c r : Prop) [Decidable l] [Decidable c] [Decidable r] :
    ((firstError l c r).getD .ok).toCode = if ¬ l then 1 else if ¬ c then 2 else if ¬ r then 4 else 0 := by
  unfold firstError
  split_ifs <;> rfl

/-- The code of a pixel command (41_pixel_access.md R131, R132). -/
theorem exec_code_of_pixel {i : Instr} {s t : State} {x y : Nat} (h : exec i s = .next t)
    (he : commandError i s = commandError (.getpx x y) s) : t.code =
      if s.cap.toNat ≤ y * 8 + x then 2 else if s.pixSize ≤ s.pixAddr.toNat + (y * 8 + x) then 4 else 0 := by
  rw [exec_code h, he, commandError, toCode_firstError]
  simp only [not_true, if_false, not_lt, not_le, Nat.lt_add_one_iff]
  rfl

/-- Settles O40: each command's checks in their order, and none for the palette commands. -/
theorem errorPriority : Obligations.ErrorPriority := by
  unfold Obligations.ErrorPriority
  refine ⟨?illegal, fun s t h => ?dect, fun s t h => ?enct, fun s t h => ?decb, fun s t h => ?encb, ?pixel, ?palette⟩
  case illegal =>
    intro w s t h hno
    cases (execute_of_no_command hno s).symm.trans h
    rfl
  case dect | enct | decb | encb =>
    rw [exec_code h, commandError, toCode_firstError]
    simp only [not_true, if_false, not_and_or, not_le]
    rfl
  case pixel =>
    rintro i x y v (rfl | rfl) s t h
    all_goals exact exec_code_of_pixel h rfl
  case palette =>
    rintro i idx (rfl | rfl | rfl) s t h
    all_goals exact exec_code h

/-! ## What an error and a success leave -/

/-- Settles O41: of the two ways a command word ends, only raising an error leaves another code than 0. -/
theorem errorChangesOnlyStatus : Obligations.ErrorChangesOnlyStatus := by
  unfold Obligations.ErrorChangesOnlyStatus
  intro w s
  obtain ⟨t, ht⟩ := execute_completes w s
  refine ⟨t, ht, fun hcode => ?_⟩
  obtain ⟨e, -, -, rfl⟩ | ⟨i, -, -, rfl⟩ := execute_outcome ht
  · rfl
  · exact absurd (commandDone_code i s) hcode

/-- Settles O42: with CODE = 0 nothing is or'ed into ANYERR (10_state.md R22). -/
theorem successLeavesAnyErr : Obligations.SuccessLeavesAnyErr := by
  unfold Obligations.SuccessLeavesAnyErr
  intro w s t h hcode
  obtain ⟨-, hany⟩ := execute_status h
  simpa [hcode] using hany

/-- Settles O43: 3 is not among the codes a command word can leave. -/
theorem allocationFailureIsNeverRaised : Obligations.AllocationFailureIsNeverRaised := by
  unfold Obligations.AllocationFailureIsNeverRaised
  rintro w s t h hcode
  obtain ⟨hlegal, -⟩ := execute_status h
  rw [hcode] at hlegal
  exact absurd hlegal (by decide)

end Sys2Proof.Machine
end

section
/-! PROOF of O44. A state with ANYERR = 1 whose transactions to come may not clear it steps to such a state, so every
state of the run is one (60_exceptions.md R160). -/

namespace Sys2Proof.Machine

/-- What every completed step keeps, every completed run keeps. -/
theorem run_keeps {P : State → Prop} (hstep : ∀ s t, P s → step s = .next t → P t) {k : Nat} {s u : State} (hs : P s)
    (h : Host.Core.run Sys2Proof.core k s = .next u) : P u := by
  induction k generalizing s with
  | zero => cases h; exact hs
  | succ k ih =>
    cases ht : step s with
    | next t =>
      rw [run_succ_of_step ht] at h
      exact ih (hstep s t hs ht) h
    | fault | refused =>
      have hcore : Sys2Proof.core.step s = _ := ht
      simp only [Host.Core.run, hcore] at h
      cases h

/-- An offset names the register whose offset it is, and no other (10_state.md R39). -/
theorem eq_registerOffset_of_registerAt {off : Nat} {r : RegName} (h : registerAt off = some r) :
    off = registerOffset r := by
  unfold registerAt at h
  split at h <;> cases h <;> rfl

/-- A host register write leaves ANYERR, but for one of STATUS with bit 4 = 1 (R22). -/
theorem writeRegister_anyErr {r : RegName} {v : Word} (h : r = .status → v.getLsbD 4 = false) (s : State) :
    (State.writeRegister r v s).anyErr = s.anyErr := by
  cases r with
  | status => simp only [State.writeRegister, writeStatus_eq, h rfl, Bool.not_false, Bool.and_true]
  | cmd | chrAddr | pixAddr | len | cap | color | result => rfl

/-- A transaction that may not clear ANYERR leaves it 1: a command can only set it (R158, R159). -/
theorem transact_anyErr {acc : HostTxn} {s u : State} (h : transact acc s = .next u) (hacc : ¬ acc.MayClearAnyErr)
    (hs : s.anyErr = true) : u.anyErr = true := by
  obtain ⟨w, -, hw⟩ | ⟨off, w, r, rfl, hr, -, rfl⟩ | ⟨off, w, -, -, rfl⟩ | ⟨off, -, rfl⟩ | ⟨sp, a, v, -, -, rfl⟩ |
    ⟨sp, a, -, -, rfl⟩ | ⟨rfl, -⟩ := transact_cases h
  · obtain ⟨-, hany⟩ := execute_status hw
    rw [hany, answer_anyErr, hs, Bool.true_or]
  · have hbit : r = .status → w.getLsbD 4 = false := by
      rintro rfl
      exact Bool.eq_false_iff.mpr fun hset => hacc ⟨eq_registerOffset_of_registerAt hr, hset⟩
    exact (writeRegister_anyErr hbit _).trans hs
  · exact hs
  · exact hs
  · exact (memWrite_anyErr _ sp a v).trans hs
  · exact hs
  · exact absurd trivial hacc

/-- ANYERR is 1 and no transaction to come may clear it. -/
structure State.AnyErrHeld (s : State) : Prop where
  anyErr : s.anyErr = true
  pending : ∀ acc ∈ s.pending, ¬ acc.MayClearAnyErr

/-- A step runs the first of the transactions, and the others are still to come. -/
theorem State.AnyErrHeld.step {s t : State} (hs : s.AnyErrHeld) (h : step s = .next t) : t.AnyErrHeld := by
  obtain ⟨-, rfl⟩ | ⟨acc, rest, hp, ht⟩ := step_cases h
  · exact hs
  · obtain ⟨hacc, hrest⟩ := List.forall_mem_cons.mp (hp ▸ hs.pending)
    obtain ⟨-, hpending⟩ := transact_keeps ht
    exact ⟨transact_anyErr ht hacc hs.anyErr, hpending ▸ hrest⟩

/-- Settles O44: by induction on the steps. -/
theorem anyErrIsSticky : Obligations.AnyErrIsSticky := by
  unfold Obligations.AnyErrIsSticky
  intro k s u hany hpending h
  exact (run_keeps (P := State.AnyErrHeld) (fun _ _ hs => hs.step) ⟨hany, hpending⟩ h).anyErr

end Sys2Proof.Machine
end

section
/-! PROOFS of O2 and O11: a step on the reset input (70_reset_and_hazards.md R180, R182), and a step with no transaction
to run (R181). -/

namespace Sys2Proof.Machine

/-- Settles O2: the reset palette holds one colour, and no byte of the reset spaces is listed. -/
theorem resetInputResetsRegistersAndPalette : Obligations.ResetInputResetsRegistersAndPalette := by
  unfold Obligations.ResetInputResetsRegistersAndPalette
  intro s rest hp
  refine ⟨_, step_of_pending hp, rfl, rfl, rfl, rfl, rfl, rfl, rfl, rfl, palRead_uniform rfl, rfl, rfl, rfl, rfl, ?_⟩
  intro sp a
  cases sp <;> rfl

/-- Settles O11: `step` on an empty list of transactions. -/
theorem blockWaitsForHost : Obligations.BlockWaitsForHost := by
  unfold Obligations.BlockWaitsForHost
  intro s hp
  rw [step, hp]

end Sys2Proof.Machine
end

section
/-! PROOF of O19. The run is as long as the list of transactions, so it ends with the last of them (R189). -/

namespace Sys2Proof.Machine

/-- Settles O19: `run_legal` for the whole list, with nothing asked of its states beyond their sizes. -/
theorem legalRunCompletes : Obligations.LegalRunCompletes := by
  unfold Obligations.LegalRunCompletes
  intro s hlegal
  obtain ⟨u, hrun, hpu, hsize, -⟩ := run_legal (P := fun _ => True) (List.append_nil s.pending).symm hlegal trivial
    (fun _ _ _ _ _ _ _ => trivial)
  have hend := hrun 0
  rw [Nat.zero_add] at hend
  exact ⟨u, hend, hpu, congrFun hsize .chr, congrFun hsize .pix⟩

end Sys2Proof.Machine
end

section
/-! SUPPORT. The value a host read of a register returns, after each operation that may change the state: a register
write shows in the register it names (10_state.md R22 to R28), and a command in STATUS and RESULT. -/

namespace Sys2Proof.Machine

@[simp] theorem awaiting_readRegister (s : State) (ts : List HostTxn) (r : RegName) :
    (s.awaiting ts).readRegister r = s.readRegister r := by
  cases r <;> rfl

@[simp] theorem answer_readRegister (s : State) (a : Reply) (r : RegName) :
    (s.answer a).readRegister r = s.readRegister r := by
  cases r <;> rfl

@[simp] theorem memWrite_readRegister (s : State) (sp : Space) (a : Nat) (v : Byte) (r : RegName) :
    (State.memWrite sp a v s).readRegister r = s.readRegister r := by
  cases sp <;> cases r <;> rfl

/-- A register write shows in no other register. -/
theorem writeRegister_readRegister_of_ne {q r : RegName} (h : r ≠ q) (v : Word) (s : State) :
    (State.writeRegister q v s).readRegister r = s.readRegister r := by
  cases q with
  | cmd | result => rfl
  | status =>
    rw [State.writeRegister, writeStatus_eq]
    cases r with
    | status => exact absurd rfl h
    | cmd | chrAddr | pixAddr | len | cap | color | result => rfl
  | chrAddr | pixAddr | len | cap | color =>
    cases r <;> simp_all [State.writeRegister, State.readRegister, State.statusWord]

/-- A command word changes STATUS, RESULT, the palette and the byte spaces alone (60_exceptions.md R158, R159). -/
theorem execute_frame {w : Word} {s t : State} (h : execute w s = .next t) : ∃ c e v p m n,
    t = { s with code := c, anyErr := e, result := v, pal := p, chr := m, pix := n } := by
  obtain ⟨e, -, -, rfl⟩ | ⟨i, -, -, rfl⟩ := execute_outcome h
  · exact ⟨_, _, _, _, _, _, rfl⟩
  · obtain ⟨m, n, p, hi⟩ := commandEffect_frame i s
    rw [commandDone, hi]
    exact ⟨_, _, _, _, _, _, rfl⟩

/-- A command word shows in no register but STATUS and RESULT. -/
theorem execute_readRegister {w : Word} {s t : State} {r : RegName} (h : execute w s = .next t)
    (hstatus : r ≠ .status) (hresult : r ≠ .result) : t.readRegister r = s.readRegister r := by
  obtain ⟨c, e, v, p, m, n, rfl⟩ := execute_frame h
  cases r with
  | status => exact absurd rfl hstatus
  | result => exact absurd rfl hresult
  | cmd | chrAddr | pixAddr | len | cap | color => rfl

/-- COLOR has the 24 bits that a host read of it returns (10_state.md R27). -/
theorem color_eq_of_readRegister {s t : State} (h : t.readRegister .color = s.readRegister .color) :
    t.color = s.color := by
  have hbits := congrArg (BitVec.setWidth 24) h
  simpa [State.readRegister] using hbits

end Sys2Proof.Machine
end

section
/-! PROOF of O46. The block itself writes two registers, STATUS and RESULT; any other that a step without the reset
input changes is the one that the host's transaction writes (70_reset_and_hazards.md R186). -/

namespace Sys2Proof.Machine

/-- Of the transactions but the reset input, only the host's write of a register changes it, STATUS and RESULT apart. -/
theorem transact_changes_written_register {acc : HostTxn} {s t : State} {r : RegName} (h : transact acc s = .next t)
    (hreset : acc ≠ .reset) (hstatus : r ≠ .status) (hresult : r ≠ .result)
    (hne : t.readRegister r ≠ s.readRegister r) : ∃ v, acc = .writeReg 4 (registerOffset r) v := by
  obtain ⟨w, -, hw⟩ | ⟨off, w, q, rfl, hq, -, rfl⟩ | ⟨off, w, -, -, rfl⟩ | ⟨off, -, rfl⟩ | ⟨sp, a, v, -, -, rfl⟩ |
    ⟨sp, a, -, -, rfl⟩ | ⟨rfl, -⟩ := transact_cases h
  · exact absurd ((execute_readRegister hw hstatus hresult).trans (answer_readRegister s .done r)) hne
  · have hrq : r = q := by
      by_contra hrq
      exact hne ((writeRegister_readRegister_of_ne hrq w _).trans (answer_readRegister s .done r))
    exact ⟨w, by rw [hrq, eq_registerOffset_of_registerAt hq]⟩
  · exact absurd (answer_readRegister s _ r) hne
  · exact absurd (answer_readRegister s _ r) hne
  · exact absurd ((memWrite_readRegister _ sp a v r).trans (answer_readRegister s .done r)) hne
  · exact absurd (answer_readRegister s _ r) hne
  · exact absurd rfl hreset

/-- The same of a step: the transaction is the first of those to come. -/
theorem step_changes_written_register {s t : State} {r : RegName} (h : step s = .next t)
    (hreset : s.pending.head? ≠ some .reset) (hstatus : r ≠ .status) (hresult : r ≠ .result)
    (hne : t.readRegister r ≠ s.readRegister r) : ∃ v, s.pending.head? = some (.writeReg 4 (registerOffset r) v) := by
  obtain ⟨-, rfl⟩ | ⟨acc, rest, hp, ht⟩ := step_cases h
  · exact absurd rfl hne
  · rw [hp, List.head?_cons] at hreset ⊢
    rw [← awaiting_readRegister s rest r] at hne
    obtain ⟨v, rfl⟩ := transact_changes_written_register ht (fun hacc => hreset (congrArg some hacc)) hstatus hresult hne
    exact ⟨v, rfl⟩

/-- Settles O46: none of the five registers is STATUS or RESULT. -/
theorem operandRegistersPersist : Obligations.OperandRegistersPersist := by
  unfold Obligations.OperandRegistersPersist
  intro s t h hreset
  have hwritten (r : RegName) := step_changes_written_register (r := r) h hreset
  exact ⟨hwritten .chrAddr (by decide) (by decide), hwritten .pixAddr (by decide) (by decide),
    hwritten .len (by decide) (by decide), hwritten .cap (by decide) (by decide),
    fun hne => hwritten .color (by decide) (by decide) (mt color_eq_of_readRegister hne)⟩

end Sys2Proof.Machine
end
